-- ==== Sys2Proof/Word.lean ====
section
/-! DEFINITION. The word types of the block: every width of 00_scope.md rule R7. -/

namespace Sys2Proof

/-- A command word: 64 bits (R7, R90). -/
abbrev Word := BitVec 64

/-- An unsigned 32-bit integer (R8). -/
abbrev U32 := BitVec 32

/-- A binary32 value, held as its bit pattern: sign in bit 31, exponent in bits 30:23, fraction in
bits 22:0 (R10). -/
abbrev F32 := BitVec 32

/-- A register number of READ: 4 bits (R7, R43). -/
abbrev RegNum := BitVec 4

/-- One byte of a transport that carries commands as bytes (R71). -/
abbrev Byte := BitVec 8

end Sys2Proof
end

