-- ==== Sys2Proof/Syntax.lean ====
section
/-! DEFINITION. The commands of the block, one constructor per row of opcode_table.json
(30_encoding.md rule R91). -/

namespace Sys2Proof

/-- A decoded command with its operand (R91, R92). -/
inductive Instr where
  /-- NOP (R211). -/
  | nop
  /-- SET_FREQ with a binary32 operand (R201). -/
  | setFreq (d : F32)
  /-- SET_WAVE with an unsigned index (R202). -/
  | setWave (d : U32)
  /-- SET_OFFSET (R203). -/
  | setOffset (d : F32)
  /-- SET_DEPTH (R204). -/
  | setDepth (d : F32)
  /-- SET_SHAPE (R205). -/
  | setShape (d : F32)
  /-- SET_PW (R206). -/
  | setPw (d : F32)
  /-- SET_SMOOTH (R207). -/
  | setSmooth (d : F32)
  /-- SET_SR (R208). -/
  | setSr (d : F32)
  /-- RESET_PHASE (R209). -/
  | resetPhase
  /-- TICK (R180). -/
  | tick
  /-- READ of a register number (R210). -/
  | read (r : RegNum)
  deriving DecidableEq, Repr

end Sys2Proof
end

