-- ==== Sys2Proof/WellFormed.lean ====
section
/-! DEFINITION. Which commands have an encoding: all but a READ of register 15, which does not exist
(10_state.md rule R43, 30_encoding.md rule R97). -/

namespace Sys2Proof

/-- The operand is one that R91 allows. The F32 and U32 operands are unrestricted (R92, R96). -/
def Instr.wellFormed : Instr → Bool
  | .nop => true
  | .setFreq _ => true
  | .setWave _ => true
  | .setOffset _ => true
  | .setDepth _ => true
  | .setShape _ => true
  | .setPw _ => true
  | .setSmooth _ => true
  | .setSr _ => true
  | .resetPhase => true
  | .tick => true
  | .read r => r != 15#4

end Sys2Proof
end

