-- ==== Sys2Proof/Decode.lean ====
section
/-! DEFINITION. The command word: its fields, the decoder (rule R93), the byte order of a transport
(rule R71), the encoder, and the opcode table (rule R91). -/

namespace Sys2Proof

/-! ## Fields (R90) -/

/-- `OP`, bits 63:56. -/
def opField (w : Word) : BitVec 8 := w.extractLsb' 56 8

/-- `RES`, bits 55:32. -/
def resField (w : Word) : BitVec 24 := w.extractLsb' 32 24

/-- `DATA`, bits 31:0. -/
def dataField (w : Word) : BitVec 32 := w.extractLsb' 0 32

/-- The register operand `r = DATA[3:0]` (R92). -/
def regField (d : BitVec 32) : RegNum := d.extractLsb' 0 4

/-- `DATA[31:4]`, which READ requires to be zero (R91). -/
def regHighField (d : BitVec 32) : BitVec 28 := d.extractLsb' 4 28

/-! ## The decoder (R93) -/

/-- Why a word is illegal: the five cases of R95. The block does not record the reason (R302); the
names are the model's own. -/
inductive Illegal where
  /-- `RES` is not zero. -/
  | reservedBits
  /-- `OP` is 0x0C..0xFF. -/
  | reservedOpcode
  /-- NOP, RESET_PHASE or TICK with `DATA` not zero. -/
  | operandNotZero
  /-- READ with `DATA[31:4]` not zero. -/
  | registerHighBits
  /-- READ of register 15 (R97). -/
  | noSuchRegister
  deriving DecidableEq, Repr

/-- A command without operand: `DATA` must be zero (R92). -/
def decodeNoOperand (data : BitVec 32) (i : Instr) : Except Illegal Instr :=
  if data = 0#32 then .ok i else .error .operandNotZero

/-- READ's operand (R92, R97). -/
def decodeRead (data : BitVec 32) : Except Illegal Instr :=
  if regHighField data ≠ 0#28 then .error .registerHighBits
  else if regField data = 15#4 then .error .noSuchRegister
  else .ok (.read (regField data))

/-- `decode(w)` of R93: total on every 64-bit word. -/
def decode (w : Word) : Except Illegal Instr :=
  if resField w ≠ 0#24 then .error .reservedBits
  else match (opField w).toNat with
    | 0x00 => decodeNoOperand (dataField w) .nop
    | 0x01 => .ok (.setFreq (dataField w))
    | 0x02 => .ok (.setWave (dataField w))
    | 0x03 => .ok (.setOffset (dataField w))
    | 0x04 => .ok (.setDepth (dataField w))
    | 0x05 => .ok (.setShape (dataField w))
    | 0x06 => .ok (.setPw (dataField w))
    | 0x07 => .ok (.setSmooth (dataField w))
    | 0x08 => .ok (.setSr (dataField w))
    | 0x09 => decodeNoOperand (dataField w) .resetPhase
    | 0x0A => decodeNoOperand (dataField w) .tick
    | 0x0B => decodeRead (dataField w)
    | _ => .error .reservedOpcode

/-! ## Byte transport (R71, R72) -/

/-- The bytes of a word on a byte transport: byte k holds bits `[8k+7:8k]` (R71). -/
def bytesOfWord (w : Word) : List Byte :=
  [w.extractLsb' 0 8, w.extractLsb' 8 8, w.extractLsb' 16 8, w.extractLsb' 24 8,
   w.extractLsb' 32 8, w.extractLsb' 40 8, w.extractLsb' 48 8, w.extractLsb' 56 8]

/-- The first command word on a byte transport and the bytes after it. Fewer than eight bytes are no
command (R72). -/
def wordOfBytes : List Byte → Option (Word × List Byte)
  | b0 :: b1 :: b2 :: b3 :: b4 :: b5 :: b6 :: b7 :: rest =>
    some (b7 ++ b6 ++ b5 ++ b4 ++ b3 ++ b2 ++ b1 ++ b0, rest)
  | _ => none

/-- The bytes of a 32-bit response word, its `sample` or its `rdata`, on a byte transport (R71). -/
def bytesOfResponse (v : BitVec 32) : List Byte :=
  [v.extractLsb' 0 8, v.extractLsb' 8 8, v.extractLsb' 16 8, v.extractLsb' 24 8]

/-- What a byte transport delivers: nothing, or one decoded or illegal word and the bytes left. -/
def decodeBytes (bs : List Byte) : Option (Except Illegal Instr × List Byte) :=
  match wordOfBytes bs with
  | some (w, rest) => some (decode w, rest)
  | none => none

/-- The word whose bits are `w`, of which a table row of `nbits` bits gives the low ones; the bits
above are zero. -/
def tableWord (nbits w : Nat) : Word := BitVec.ofNat 64 (w % 2 ^ nbits)

/-- The command the decoder reads from a table row's word, laid out in bytes as R71 says. No word is
longer than 64 bits (R98). -/
def decodeTableWord (nbits w : Nat) : Option Instr :=
  if nbits ≤ 64 then
    match decodeBytes (bytesOfWord (tableWord nbits w)) with
    | some (.ok i, _) => some i
    | _ => none
  else none

/-! ## The encoder (R90, R91) -/

/-- A word with `RES` zero (R90). -/
def encodeFields (op : BitVec 8) (data : BitVec 32) : Word := op ++ (0#24 : BitVec 24) ++ data

/-- The opcode of a command (R91). -/
def opcodeOf : Instr → BitVec 8
  | .nop => 0x00#8
  | .setFreq _ => 0x01#8
  | .setWave _ => 0x02#8
  | .setOffset _ => 0x03#8
  | .setDepth _ => 0x04#8
  | .setShape _ => 0x05#8
  | .setPw _ => 0x06#8
  | .setSmooth _ => 0x07#8
  | .setSr _ => 0x08#8
  | .resetPhase => 0x09#8
  | .tick => 0x0A#8
  | .read _ => 0x0B#8

/-- The `DATA` field of a command (R92). -/
def operandOf : Instr → BitVec 32
  | .nop => 0#32
  | .setFreq d => d
  | .setWave d => d
  | .setOffset d => d
  | .setDepth d => d
  | .setShape d => d
  | .setPw d => d
  | .setSmooth d => d
  | .setSr d => d
  | .resetPhase => 0#32
  | .tick => 0#32
  | .read r => r.setWidth 32

/-- The word of a command. -/
def encode (i : Instr) : Word := encodeFields (opcodeOf i) (operandOf i)

/-! ## The opcode table (R91, opcode_table.json) -/

/-- The mnemonic of a command, as the table spells it. -/
def mnemonicOf : Instr → String
  | .nop => "NOP"
  | .setFreq _ => "SET_FREQ"
  | .setWave _ => "SET_WAVE"
  | .setOffset _ => "SET_OFFSET"
  | .setDepth _ => "SET_DEPTH"
  | .setShape _ => "SET_SHAPE"
  | .setPw _ => "SET_PW"
  | .setSmooth _ => "SET_SMOOTH"
  | .setSr _ => "SET_SR"
  | .resetPhase => "RESET_PHASE"
  | .tick => "TICK"
  | .read _ => "READ"

/-- A row of opcode_table.json. -/
structure OpcodeRow where
  mnemonic : String
  pattern : Word
  mask : Word
  deriving DecidableEq, Repr

/-- The rows of opcode_table.json, in its order, with the masks as the file gives them. The masks of
the setters leave out bits 39:32 of `RES`, which R90, R93 and R95 require to be zero: a fit is
necessary for a legal word and not sufficient (notes/assumptions/11.md). -/
def opcodeTable : List OpcodeRow :=
  [⟨"NOP", 0x0000000000000000#64, 0xFFFFFFFFFFFFFFFF#64⟩,
   ⟨"SET_FREQ", 0x0100000000000000#64, 0xFFFFFF0000000000#64⟩,
   ⟨"SET_WAVE", 0x0200000000000000#64, 0xFFFFFF0000000000#64⟩,
   ⟨"SET_OFFSET", 0x0300000000000000#64, 0xFFFFFF0000000000#64⟩,
   ⟨"SET_DEPTH", 0x0400000000000000#64, 0xFFFFFF0000000000#64⟩,
   ⟨"SET_SHAPE", 0x0500000000000000#64, 0xFFFFFF0000000000#64⟩,
   ⟨"SET_PW", 0x0600000000000000#64, 0xFFFFFF0000000000#64⟩,
   ⟨"SET_SMOOTH", 0x0700000000000000#64, 0xFFFFFF0000000000#64⟩,
   ⟨"SET_SR", 0x0800000000000000#64, 0xFFFFFF0000000000#64⟩,
   ⟨"RESET_PHASE", 0x0900000000000000#64, 0xFFFFFFFFFFFFFFFF#64⟩,
   ⟨"TICK", 0x0A00000000000000#64, 0xFFFFFFFFFFFFFFFF#64⟩,
   ⟨"READ", 0x0B00000000000000#64, 0xFFFFFFFFFFFFFFF0#64⟩]

/-- The word fits the row: it has the row's fixed bits. -/
def OpcodeRow.fits (row : OpcodeRow) (w : Word) : Bool := w &&& row.mask == row.pattern

end Sys2Proof
end

