-- ==== Sys2Proof/Machine/Float.lean ====
section
/-! DEFINITION. Binary32 arithmetic: the numerics primitives of 00_scope.md section 6 (rules
R10-R15).

A finite binary32 value is a whole number of units of 2^-149, the least positive subnormal. Each
operation forms its exact result from the operands' units and rounds it ONCE, by `roundUnits`. The
spec names IEEE 754-2008 and marks its definitions as general knowledge (notes/assumptions/8.md). -/

namespace Sys2Proof.Machine

/-! ## The fields of a pattern (R10) -/

/-- The sign, bit 31. -/
def signOf (x : F32) : Bool := decide (2147483648 ≤ x.toNat)

/-- Bits 30:0. -/
def magOf (x : F32) : Nat := x.toNat % 2147483648

/-- The biased exponent, bits 30:23. -/
def expOf (x : F32) : Nat := magOf x / 8388608

/-- The fraction, bits 22:0. -/
def fracOf (x : F32) : Nat := magOf x % 8388608

/-- The pattern with sign `neg` and bits 30:0 `mag`. -/
def ofParts (neg : Bool) (mag : Nat) : F32 :=
  BitVec.ofNat 32 (if neg then 2147483648 + mag else mag)

/-! ## Classification (R13) -/

def isNaN (x : F32) : Bool := expOf x == 255 && fracOf x != 0
def isInf (x : F32) : Bool := expOf x == 255 && fracOf x == 0
def isFinite (x : F32) : Bool := expOf x != 255
def isZero (x : F32) : Bool := magOf x == 0

/-! ## Constants (R12, R15) -/

/-- The canonical quiet NaN (R12). -/
def QNAN : F32 := 0x7FC00000#32
def ZERO : F32 := 0x00000000#32
def NEG_ZERO : F32 := 0x80000000#32
def ONE : F32 := 0x3F800000#32
def MINUS_ONE : F32 := 0xBF800000#32
def TWO : F32 := 0x40000000#32
def FOUR : F32 := 0x40800000#32
def HALF : F32 := 0x3F000000#32
def PW_MIN : F32 := 0x3C23D70A#32
def PW_MAX : F32 := 0x3F7D70A4#32
def TWO_PI : F32 := 0x40C90FDB#32
def INF : F32 := 0x7F800000#32

/-! ## Values and rounding (R10, R11) -/

/-- The absolute value of a finite pattern, in units of 2^-149: a subnormal is its fraction, a
normal number is its 24-bit significand shifted by the exponent. -/
def unitsOf (x : F32) : Nat :=
  if expOf x = 0 then fracOf x else (8388608 + fracOf x) * 2 ^ (expOf x - 1)

/-- The value of a finite pattern, in units of 2^-149. -/
def signedUnits (x : F32) : Int :=
  if signOf x then -(unitsOf x : Int) else (unitsOf x : Int)

/-- `n / d` rounded to the nearest whole number, a tie going to the even one. -/
def roundDiv (n d : Nat) : Nat :=
  if d < 2 * (n % d) ∨ (2 * (n % d) = d ∧ n / d % 2 = 1) then n / d + 1 else n / d

/-- Bits 30:0 of the binary32 value nearest `n / d` units, ties to even (roundTiesToEven, R11). `e`
is the number of low bits that the 24-bit significand drops, zero for a subnormal result. A
significand that rounds up to 2^24 carries into the exponent by the addition, and a result past the
largest finite number is infinity (`0x7F800000`). -/
def roundUnits (n d : Nat) : Nat :=
  let e := Nat.log2 (n / d) - 23
  min (e * 8388608 + roundDiv n (d * 2 ^ e)) 0x7F800000

/-! ## Operations (R11, R12) -/

/-- Negation: the sign bit flipped. -/
def fneg (x : F32) : F32 := ofParts (!signOf x) (magOf x)

/-- IEEE addition. An exact zero sum is `-0.0` only when both operands are negative. -/
def fadd (a b : F32) : F32 :=
  if isNaN a || isNaN b then QNAN
  else if isInf a then (if isInf b && signOf a != signOf b then QNAN else a)
  else if isInf b then b
  else if signedUnits a + signedUnits b = 0 then ofParts (signOf a && signOf b) 0
  else ofParts (decide (signedUnits a + signedUnits b < 0))
    (roundUnits (signedUnits a + signedUnits b).natAbs 1)

/-- IEEE subtraction: addition of the negated operand. -/
def fsub (a b : F32) : F32 := fadd a (fneg b)

/-- IEEE multiplication: the exact product has unit 2^-298. -/
def fmul (a b : F32) : F32 :=
  if isNaN a || isNaN b then QNAN
  else if isInf a || isInf b then
    (if isZero a || isZero b then QNAN else ofParts (signOf a != signOf b) 0x7F800000)
  else ofParts (signOf a != signOf b) (roundUnits (unitsOf a * unitsOf b) (2 ^ 149))

/-- IEEE division. -/
def fdiv (a b : F32) : F32 :=
  if isNaN a || isNaN b then QNAN
  else if isInf a then
    (if isInf b then QNAN else ofParts (signOf a != signOf b) 0x7F800000)
  else if isInf b then ofParts (signOf a != signOf b) 0
  else if isZero b then
    (if isZero a then QNAN else ofParts (signOf a != signOf b) 0x7F800000)
  else ofParts (signOf a != signOf b) (roundUnits (unitsOf a * 2 ^ 149) (unitsOf b))

/-! ## Comparisons (R13) -/

/-- The position of a non-NaN pattern in the order of values; both zeros stand at 0. -/
def orderKey (x : F32) : Int := if signOf x then -(magOf x : Int) else (magOf x : Int)

def flt (a b : F32) : Bool := !isNaN a && !isNaN b && decide (orderKey a < orderKey b)
def fle (a b : F32) : Bool := !isNaN a && !isNaN b && decide (orderKey a ≤ orderKey b)
def fgt (a b : F32) : Bool := flt b a
def fge (a b : F32) : Bool := fle b a
def feq (a b : F32) : Bool := !isNaN a && !isNaN b && decide (orderKey a = orderKey b)

/-! ## Clamping (R14, R122) -/

/-- `clampf` (R14). -/
def clampf (x lo hi : F32) : F32 :=
  if flt x lo then lo else if fgt x hi then hi else x

/-- `clamp01` (R122). -/
def clamp01 (v : F32) : F32 := clampf v ZERO ONE

/-! ## Whole numbers of units and decimal literals -/

/-- The binary32 value nearest `n / d`, with sign `neg`: the reading of a decimal literal (R99). -/
def f32OfRatio (neg : Bool) (n d : Nat) : F32 := ofParts neg (roundUnits (n * 2 ^ 149) d)

end Sys2Proof.Machine
end

