-- ==== Sys2Proof/Config.lean ====
section
/-! DEFINITION. What an implementation of the block fixes (00_scope.md rule R6): the creation-time
parameters, and the two functions whose precision the source leaves open, each a constant without a
body of which only the laws of the spec are known. -/

namespace Sys2Proof.Config

open Sys2Proof.Machine

/-- The parameters of R6 that reset reads (R400). -/
structure Params where
  /-- `INIT_FREQ`: the creation-time frequency, if given. -/
  initFreq : Option F32
  /-- `DEFAULT_FREQ`: finite and > 0. -/
  defaultFreq : F32
  /-- `SR_PLACEHOLDER`: finite and > 0. -/
  srPlaceholder : F32
  /-- `IDLE_LEVEL_INIT`: the creation-time idle output level, if given. -/
  idleLevelInit : Option F32
  /-- `PRBS_SEED`. -/
  prbsSeed : U32
  deriving DecidableEq, Repr

/-- The parameters are of the kinds R6 requires: `DEFAULT_FREQ` and `SR_PLACEHOLDER` are finite and
greater than zero. The others are free. -/
def Params.wf (p : Params) : Bool :=
  isFinite p.defaultFreq && fgt p.defaultFreq ZERO &&
  isFinite p.srPlaceholder && fgt p.srPlaceholder ZERO

/-- The defaults of R6. DESIGN CHOICE (notes/assumptions/1.md): the machine of this package is
created with them. -/
def Params.default : Params :=
  { initFreq := none, defaultFreq := 0x3F800000#32, srPlaceholder := 0x472C4400#32,
    idleLevelInit := none, prbsSeed := 0x00000001#32 }

/-! ## Functions that meet the laws

`SinFun` and `PowFun` below are functions together with the laws of R16 and R17. The two witnesses
only show that such functions exist. They say nothing about `sin` and `pow`, which have no body. -/

def sinWitness (x : F32) : F32 :=
  if isFinite x then (if isZero x then x else ZERO) else QNAN

theorem sinWitness_in_range (x : F32) (hx : isFinite x = true) :
    fle MINUS_ONE (sinWitness x) = true ∧ fle (sinWitness x) ONE = true := by
  by_cases hz : isZero x = true
  · have hx' : x = ZERO ∨ x = NEG_ZERO := by
      simp only [isZero, magOf, beq_iff_eq] at hz
      have h : x.toNat = 0 ∨ x.toNat = 2147483648 := by
        have := x.isLt
        omega
      exact h.imp (fun h => BitVec.eq_of_toNat_eq h) (fun h => BitVec.eq_of_toNat_eq h)
    rcases hx' with rfl | rfl <;> decide
  · have h : sinWitness x = ZERO := by simp [sinWitness, hx, hz]
    rw [h]
    decide

theorem sinWitness_not_finite (x : F32) (hx : isFinite x = false) : sinWitness x = QNAN := by
  simp [sinWitness, hx]

/-- A base in [0, 1] that is not `-0.0` (R17 law 4: no caller passes `-0.0`). -/
def powBase (x : F32) : Bool := fle ZERO x && fle x ONE && x != NEG_ZERO

/-- An exponent `≥ 1`, `+inf` among them (R17). -/
def powExp (y : F32) : Bool := fge y ONE

def powWitness (x y : F32) : F32 :=
  if y = ONE then x else if x = ONE then ONE else ZERO

theorem powWitness_in_range (x y : F32) (hx : powBase x = true) :
    fle ZERO (powWitness x y) = true ∧ fle (powWitness x y) ONE = true := by
  simp only [powBase, Bool.and_eq_true] at hx
  unfold powWitness
  split
  · exact hx.1
  · split <;> decide

theorem ne_one_of_flt_one (x : F32) (h : flt x ONE = true) : ¬ x = ONE := by
  rintro rfl
  exact absurd h (by decide)

theorem eq_one_of_powExp_of_fle_one (y : F32) (hy : powExp y = true) (h : fle y ONE = true) :
    y = ONE := by
  simp only [powExp, fge, fle, orderKey, signOf, magOf, ONE, Bool.and_eq_true,
    decide_eq_true_eq] at hy h
  apply BitVec.eq_of_toNat_eq
  have := y.isLt
  norm_num [ONE] at hy h ⊢
  omega

theorem powWitness_exponent_inf (x : F32) (h : flt x ONE = true) : powWitness x INF = ZERO := by
  have hi : ¬ INF = ONE := by decide
  simp [powWitness, hi, ne_one_of_flt_one x h]

theorem powWitness_base_zero (y : F32) : powWitness ZERO y = ZERO := by
  have h : ¬ ZERO = ONE := by decide
  simp [powWitness, h]

theorem powWitness_antitone (x y z : F32) (hx : powBase x = true) (h1 : flt x ONE = true)
    (hy : powExp y = true) (hyz : fle y z = true) :
    fle (powWitness x z) (powWitness x y) = true := by
  have hne := ne_one_of_flt_one x h1
  by_cases hz : z = ONE
  · subst hz
    rw [eq_one_of_powExp_of_fle_one y hy hyz]
    have hn : isNaN x = false := by
      simp only [powBase, fle, Bool.and_eq_true, Bool.not_eq_true'] at hx
      exact hx.1.1.1.2
    simp [powWitness, fle, hn]
  · have hzero : powWitness x z = ZERO := by simp [powWitness, hz, hne]
    rw [hzero]
    exact (powWitness_in_range x y hx).1

/-! ## SIN_F32 (R16) -/

/-- A sine function: a total function with the laws of R16 and nothing else. Law 4, determinism, is
that it is a function. -/
structure SinFun where
  fn : F32 → F32 := sinWitness
  /-- Law 1: a finite argument gives a value in [-1, 1], which is no NaN. -/
  finite_in_range : ∀ x, isFinite x = true →
      fle MINUS_ONE (fn x) = true ∧ fle (fn x) ONE = true := by
    exact sinWitness_in_range
  /-- Law 2. -/
  at_zero : fn ZERO = ZERO := by decide
  /-- Law 2. -/
  at_neg_zero : fn NEG_ZERO = NEG_ZERO := by decide
  /-- Law 3: an infinite or NaN argument gives the canonical NaN. -/
  not_finite : ∀ x, isFinite x = false → fn x = QNAN := by exact sinWitness_not_finite
  deriving Inhabited

/-- The block's sine. FREE VALUE (notes/assumptions/5.md): no body, only the laws of R16. -/
opaque sin : SinFun

/-- `SIN_F32` (R16). -/
def sinF32 (x : F32) : F32 := sin.fn x

/-! ## POW_F32 (R17) -/

/-- A power function: a total function with the laws of R17 on the domain of its callers, and
nothing else. Law 7, determinism, is that it is a function. -/
structure PowFun where
  fn : F32 → F32 → F32 := powWitness
  /-- Law 1: a value in [0, 1], which is no NaN. -/
  in_range : ∀ x y, powBase x = true → powExp y = true →
      fle ZERO (fn x y) = true ∧ fle (fn x y) ONE = true := by
    exact fun x y hx _ => powWitness_in_range x y hx
  /-- Law 2. -/
  exponent_one : ∀ x, powBase x = true → fn x ONE = x := by
    exact fun x _ => by simp [powWitness]
  /-- Law 3. -/
  base_one : ∀ y, powExp y = true → fn ONE y = ONE := by
    exact fun y _ => by simp [powWitness]
  /-- Law 4. -/
  base_zero : ∀ y, powExp y = true → fn ZERO y = ZERO := by
    exact fun y _ => powWitness_base_zero y
  /-- Law 5. -/
  exponent_inf : ∀ x, powBase x = true → flt x ONE = true → fn x INF = ZERO := by
    exact fun x _ h => powWitness_exponent_inf x h
  /-- Law 6: monotone non-increasing in the exponent, for a base in [0, 1). -/
  antitone : ∀ x y z, powBase x = true → flt x ONE = true → powExp y = true → powExp z = true →
      fle y z = true → fle (fn x z) (fn x y) = true := by
    exact fun x y z hx h1 hy _ hyz => powWitness_antitone x y z hx h1 hy hyz
  deriving Inhabited

/-- The block's power. FREE VALUE (notes/assumptions/6.md): no body, only the laws of R17. -/
opaque pow : PowFun

/-- `POW_F32` (R17). -/
def powF32 (x y : F32) : F32 := pow.fn x y

end Sys2Proof.Config
end

