-- ==== Sys2Proof/Machine/ResetValues.lean ====
section
/-! DEFINITION. The reset values that depend on the creation-time parameters
(70_reset_and_hazards.md rules R401-R404). -/

namespace Sys2Proof.Machine

open Sys2Proof.Config

/-- R401. -/
def resetFreq (p : Params) : F32 :=
  match p.initFreq with
  | some f => if !isNaN f && fgt f ZERO then f else p.defaultFreq
  | none => p.defaultFreq

/-- R402. -/
def resetSr (p : Params) : F32 := p.srPlaceholder

/-- R402: computed from the reset frequency and sample rate. -/
def resetPinc (p : Params) : F32 := fdiv (resetFreq p) (resetSr p)

/-- R403. -/
def resetIdle (p : Params) : F32 :=
  match p.idleLevelInit with
  | some f => if isNaN f then ZERO else f
  | none => ZERO

/-- R404: a zero seed, under which the generator would stay zero, is replaced by one. -/
def resetPrbs (p : Params) : U32 := if p.prbsSeed = 0#32 then 0x00000001#32 else p.prbsSeed

end Sys2Proof.Machine
end

