-- ==== Sys2Proof/Machine/State.lean ====
section
/-! DEFINITION. The state of the machine (10_state.md), its reset (rule R47), the response record
(00_scope.md rule R18), and the reasons a step could stop. -/

namespace Sys2Proof.Machine

/-- The six waveforms, in the order of their indices 0..5 (R33). -/
inductive Waveform where
  | sine
  | rampUp
  | rampDown
  | triangle
  | square
  | randomHold
  deriving DecidableEq, Repr

/-- The spec's record `S`, the OscillatorState (R30, R31): everything the block keeps between
commands. -/
structure Osc where
  /-- `S.freq`, register 0 (R32). -/
  freq : F32
  /-- `S.wave`, register 1 (R33), by name (notes/assumptions/7.md). -/
  wave : Waveform
  /-- `S.offset`, register 2 (R34). -/
  offset : F32
  /-- `S.depth`, register 3 (R34). -/
  depth : F32
  /-- `S.shape`, register 4 (R34). -/
  shape : F32
  /-- `S.pw`, register 5 (R35). -/
  pw : F32
  /-- `S.scoef`, register 6 (R36). -/
  scoef : F32
  /-- `S.sr`, register 7 (R37). -/
  sr : F32
  /-- `S.phase`, register 8 (R38). -/
  phase : F32
  /-- `S.pinc`, register 9 (R39). -/
  pinc : F32
  /-- `S.held`, register 10 (R41). -/
  held : F32
  /-- `S.smoothed`, register 11 (R40). -/
  smoothed : F32
  /-- `S.idle`, register 12 (R42). -/
  idle : F32
  /-- `S.prbs`, register 13 (R42). -/
  prbs : U32
  /-- `S.err`, the sticky bit 1 of STATUS (R44, R300). -/
  err : Bool
  deriving DecidableEq, Repr

/-- The response of one command (R18). -/
structure Resp where
  /-- The output sample, present only for TICK. -/
  sample : Option F32
  /-- The cycle-wrap event `onCycleWrap()` (R303). -/
  wrap : Bool
  /-- The register value, present only for READ. -/
  rdata : Option U32
  deriving DecidableEq, Repr

/-- The empty response (R18). -/
def Resp.empty : Resp := { sample := none, wrap := false, rdata := none }

/-- The machine: the block's state, and the two sides of its interface to the host (R2, R19). The
last two fields are the model's own (notes/assumptions/2.md and 3.md). -/
structure State where
  /-- The block's state `S`. -/
  osc : Osc
  /-- The command words the host has still to issue, in order (R19). -/
  pending : List Word
  /-- The response of the last command executed, none before the first (R18). -/
  resp : Option Resp
  deriving DecidableEq, Repr

/-- The faults of a step: there are none. Every command completes (R188), and an illegal word is
ignored but for `S.err` (R300). Nobody raises one. Safe: no step ends here. -/
inductive Fault where
  deriving DecidableEq, Repr

/-- The refusals of a step. -/
inductive Refusal where
  /-- Raised by an arm of `exec` whose command has no meaning in the model yet: there is none, so
  nobody raises it. Safe: the model stops and claims nothing. -/
  | notModelled (mnemonic : String)
  deriving DecidableEq, Repr

/-! ## Reset (R47, R400-R404) -/

/-- `S` after reset with the creation-time parameters `p` (R47). -/
def Osc.resetWith (p : Config.Params) : Osc :=
  { freq := resetFreq p
    wave := .sine
    offset := ZERO
    depth := ONE
    shape := ZERO
    pw := HALF
    scoef := ONE
    sr := resetSr p
    phase := ZERO
    pinc := resetPinc p
    held := ZERO
    smoothed := ZERO
    idle := resetIdle p
    prbs := resetPrbs p
    err := false }

/-- The machine after reset with the parameters `p`: no command issued, no response (R400). -/
def State.resetWith (p : Config.Params) : State :=
  { osc := Osc.resetWith p, pending := [], resp := none }

/-- The machine right after reset, with the default parameters of R6 (notes/assumptions/1.md). -/
def State.reset : State := State.resetWith Config.Params.default

end Sys2Proof.Machine
end

