-- ==== Sys2Proof/Machine/Ops.lean ====
section
/-! DEFINITION. The named operations of the block: one write port per register (10_state.md rule
R31), completing a command with its response (00_scope.md rules R18, R19), and raising IllegalCommand
(60_exceptions.md rule R300), the one exception. There is no memory (20_memory.md rule R70), no trap
entry and no trap return (R306, R307). -/

namespace Sys2Proof.Machine

/-! ## Register writes. `S.idle` has none: no command writes it (R42). -/

def Osc.writeFreq (o : Osc) (v : F32) : Osc := { o with freq := v }
def Osc.writeWave (o : Osc) (v : Waveform) : Osc := { o with wave := v }
def Osc.writeOffset (o : Osc) (v : F32) : Osc := { o with offset := v }
def Osc.writeDepth (o : Osc) (v : F32) : Osc := { o with depth := v }
def Osc.writeShape (o : Osc) (v : F32) : Osc := { o with shape := v }
def Osc.writePw (o : Osc) (v : F32) : Osc := { o with pw := v }
def Osc.writeScoef (o : Osc) (v : F32) : Osc := { o with scoef := v }
def Osc.writeSr (o : Osc) (v : F32) : Osc := { o with sr := v }
def Osc.writePhase (o : Osc) (v : F32) : Osc := { o with phase := v }
def Osc.writePinc (o : Osc) (v : F32) : Osc := { o with pinc := v }
def Osc.writeHeld (o : Osc) (v : F32) : Osc := { o with held := v }
def Osc.writeSmoothed (o : Osc) (v : F32) : Osc := { o with smoothed := v }
def Osc.writePrbs (o : Osc) (v : U32) : Osc := { o with prbs := v }
def Osc.writeErr (o : Osc) (v : Bool) : Osc := { o with err := v }

/-! ## Responses (R18) -/

/-- The response of a TICK. -/
def Resp.ofTick (sample : F32) (wrap : Bool) : Resp :=
  { sample := some sample, wrap := wrap, rdata := none }

/-- The response of RESET_PHASE: the event alone. -/
def Resp.ofWrap : Resp := { sample := none, wrap := true, rdata := none }

/-- The response of a READ. -/
def Resp.ofRead (v : U32) : Resp := { sample := none, wrap := false, rdata := some v }

/-- A command ends: its results are written and its response is given, all at once (R73). -/
def State.finish (s : State) (o : Osc) (r : Resp) : State := { s with osc := o, resp := some r }

/-! ## The exception (R300, R306) -/

/-- `raise IllegalCommand`: `S.err` is set, nothing else of `S` changes, and the response is empty.
The word is not recorded (R302). -/
def illegalCommand (s : State) : State := s.finish (s.osc.writeErr true) Resp.empty

end Sys2Proof.Machine
end

