-- ==== Sys2Proof/Machine/Flags.lean ====
section
/-! DEFINITION. The flags: the Idle/Running test (42_synthesis_loop.md rule R181) and STATUS
(10_state.md rule R44), which is computed when read. -/

namespace Sys2Proof.Machine

/-- The Idle test of R181. -/
def isIdle (o : Osc) : Bool := fle o.freq ZERO

/-- `RUN`, bit 0 of STATUS: the next TICK is a Running tick (R44). -/
def runFlag (o : Osc) : Bool := !isIdle o

/-- STATUS, register 14: RUN in bit 0, ERR in bit 1, bits 31:2 zero (R44). -/
def status (o : Osc) : U32 := 0#30 ++ BitVec.ofBool o.err ++ BitVec.ofBool (runFlag o)

end Sys2Proof.Machine
end

