-- ==== Sys2Proof/Machine/Operands.lean ====
section
/-! DEFINITION. The operand forms of 30_encoding.md rule R92 and what each setter makes of them
(43_host_commands.md rules R200-R208), and the register operand of READ (10_state.md rule R43). A
form answers `none` where the command ignores the operand. -/

namespace Sys2Proof.Machine

/-! ## F32 operands -/

/-- Every F32 setter ignores a NaN (R200). -/
def f32Operand (d : F32) : Option F32 := if isNaN d then none else some d

/-- SET_FREQ's value: a negative frequency is clamped to `+0.0` (R201). -/
def freqValue (f : F32) : F32 := if flt f ZERO then ZERO else f

/-- SET_PW's value (R206). -/
def pwValue (f : F32) : F32 := clampf f PW_MIN PW_MAX

/-- SET_SMOOTH's value: one minus the clamped operand (R207). -/
def scoefValue (f : F32) : F32 := fsub ONE (clampf f ZERO ONE)

/-- SET_SR ignores an operand that is NaN, infinite or not greater than zero (R208). -/
def sampleRateOperand (d : F32) : Option F32 :=
  if isNaN d || isInf d || !fgt d ZERO then none else some d

/-! ## The waveform index (R33, R202) -/

/-- The waveform of an index, none above 5 (R202). -/
def waveOfIndex (d : U32) : Option Waveform :=
  match d.toNat with
  | 0 => some .sine
  | 1 => some .rampUp
  | 2 => some .rampDown
  | 3 => some .triangle
  | 4 => some .square
  | 5 => some .randomHold
  | _ => none

/-- The index of a waveform, the value `S.wave` reads as (R33, R43). -/
def waveIndex : Waveform → U32
  | .sine => 0#32
  | .rampUp => 1#32
  | .rampDown => 2#32
  | .triangle => 3#32
  | .square => 4#32
  | .randomHold => 5#32

/-! ## The register operand (R43, R210) -/

/-- The value of register `r`, none for register 15, which does not exist (R43). -/
def readReg (o : Osc) (r : RegNum) : Option U32 :=
  match r.toNat with
  | 0 => some o.freq
  | 1 => some (waveIndex o.wave)
  | 2 => some o.offset
  | 3 => some o.depth
  | 4 => some o.shape
  | 5 => some o.pw
  | 6 => some o.scoef
  | 7 => some o.sr
  | 8 => some o.phase
  | 9 => some o.pinc
  | 10 => some o.held
  | 11 => some o.smoothed
  | 12 => some o.idle
  | 13 => some o.prbs
  | 14 => some (status o)
  | _ => none

end Sys2Proof.Machine
end

