-- ==== Sys2Proof/Machine/HostCommands.lean ====
section
/-! DEFINITION. Phase reset, register read and no-op (43_host_commands.md rules R209-R211). -/

namespace Sys2Proof.Machine

/-- RESET_PHASE (R209): the phase becomes `+0.0` and the event is always raised. -/
def execResetPhase (s : State) : Host.Outcome State Fault Refusal :=
  .next (s.finish (s.osc.writePhase ZERO) Resp.ofWrap)

/-- READ (R210). Register 15 does not exist, and a READ of it is an illegal command (R43, R97); the
decoder answers no such READ (notes/assumptions/9.md). -/
def execRead (r : RegNum) (s : State) : Host.Outcome State Fault Refusal :=
  match readReg s.osc r with
  | some v => .next (s.finish s.osc (Resp.ofRead v))
  | none => .next (illegalCommand s)

/-- NOP (R211). -/
def execNop (s : State) : Host.Outcome State Fault Refusal :=
  .next (s.finish s.osc Resp.empty)

end Sys2Proof.Machine
end

