-- ==== Sys2Proof/Machine/Setters.lean ====
section
/-! DEFINITION. The parameter setters (43_host_commands.md rules R200-R208). Each returns the empty
response, sets no flag and raises nothing (R200). -/

namespace Sys2Proof.Machine

/-- `S` after a write of the frequency, with the increment recomputed (R201). -/
def Osc.setFreq (o : Osc) (f : F32) : Osc := (o.writeFreq f).writePinc (fdiv f o.sr)

/-- `S` after a write of the sample rate, with the increment recomputed (R208). -/
def Osc.setSr (o : Osc) (r : F32) : Osc := (o.writeSr r).writePinc (fdiv o.freq r)

/-- A setter's end: an ignored operand leaves `S` as it is, an accepted one writes it, and the
response is empty (R200). -/
def finishSetter {α : Type} (s : State) (operand : Option α) (write : Osc → α → Osc) : State :=
  match operand with
  | none => s.finish s.osc Resp.empty
  | some v => s.finish (write s.osc v) Resp.empty

/-- SET_FREQ (R201). -/
def execSetFreq (d : F32) (s : State) : Host.Outcome State Fault Refusal :=
  .next (finishSetter s (f32Operand d) fun o f => o.setFreq (freqValue f))

/-- SET_WAVE (R202). -/
def execSetWave (d : U32) (s : State) : Host.Outcome State Fault Refusal :=
  .next (finishSetter s (waveOfIndex d) Osc.writeWave)

/-- SET_OFFSET (R203). -/
def execSetOffset (d : F32) (s : State) : Host.Outcome State Fault Refusal :=
  .next (finishSetter s (f32Operand d) Osc.writeOffset)

/-- SET_DEPTH (R204). -/
def execSetDepth (d : F32) (s : State) : Host.Outcome State Fault Refusal :=
  .next (finishSetter s (f32Operand d) Osc.writeDepth)

/-- SET_SHAPE (R205). -/
def execSetShape (d : F32) (s : State) : Host.Outcome State Fault Refusal :=
  .next (finishSetter s (f32Operand d) Osc.writeShape)

/-- SET_PW (R206). -/
def execSetPw (d : F32) (s : State) : Host.Outcome State Fault Refusal :=
  .next (finishSetter s (f32Operand d) fun o f => o.writePw (pwValue f))

/-- SET_SMOOTH (R207). -/
def execSetSmooth (d : F32) (s : State) : Host.Outcome State Fault Refusal :=
  .next (finishSetter s (f32Operand d) fun o f => o.writeScoef (scoefValue f))

/-- SET_SR (R208). -/
def execSetSr (d : F32) (s : State) : Host.Outcome State Fault Refusal :=
  .next (finishSetter s (sampleRateOperand d) Osc.setSr)

end Sys2Proof.Machine
end

