-- ==== Sys2Proof/Machine/Waveform.lean ====
section
/-! DEFINITION. The waveform engine (40_waveform_engine.md): ShapeCurve and the six evaluators. Each
is a pure function of its operands. -/

namespace Sys2Proof.Machine

open Sys2Proof.Config

/-- `SHAPE(x, s)` (R120). -/
def shapeCurve (x s : F32) : F32 :=
  if feq s ZERO then x
  else if fgt s ZERO then powF32 x (fadd ONE (fmul FOUR s))
  else fsub ONE (powF32 (fsub ONE x) (fsub ONE (fmul FOUR s)))

/-- `SINE(ph)` (R124). -/
def sineWave (ph : F32) : F32 := sinF32 (fmul TWO_PI ph)

/-- `RAMPUP(ph, s)` (R125). -/
def rampUpWave (ph s : F32) : F32 := fsub (fmul TWO (shapeCurve (clamp01 ph) s)) ONE

/-- `RAMPDOWN(ph, s)` (R126). -/
def rampDownWave (ph s : F32) : F32 := fsub ONE (fmul TWO (shapeCurve (clamp01 ph) s))

/-- `TRIANGLE(ph, s)` (R127). -/
def triangleWave (ph s : F32) : F32 :=
  if flt (fmul TWO ph) ONE then fsub (fmul TWO (shapeCurve (clamp01 (fmul TWO ph)) s)) ONE
  else fsub ONE (fmul TWO (shapeCurve (clamp01 (fsub (fmul TWO ph) ONE)) s))

/-- `SQUARE(ph, pw)` (R128): the comparison is strict. -/
def squareWave (ph pw : F32) : F32 := if flt ph pw then ONE else MINUS_ONE

/-- `RANDOMHOLD(held)` (R129). -/
def randomHoldWave (held : F32) : F32 := held

/-- `WAVE(w, ph, s, pw, held)` (R123). -/
def waveValue (w : Waveform) (ph s pw held : F32) : F32 :=
  match w with
  | .sine => sineWave ph
  | .rampUp => rampUpWave ph s
  | .rampDown => rampDownWave ph s
  | .triangle => triangleWave ph s
  | .square => squareWave ph pw
  | .randomHold => randomHoldWave held

end Sys2Proof.Machine
end

