-- ==== Sys2Proof/Machine/Datapath.lean ====
section
/-! DEFINITION. The four datapath units that TICK sequences (41_phase_prbs_smoother.md): the phase
accumulator, the pseudo-random hold, the depth/offset scaler and the one-pole smoother. -/

namespace Sys2Proof.Machine

/-! ## Phase accumulator -/

/-- The rounded sum of R150, before the wrap. -/
def phaseSum (o : Osc) : F32 := fadd o.phase o.pinc

/-- An increment of zero holds a finite phase: the phase does not move (ruling C3 of 90_conflicts.md,
fixed in the corner cases of R150 and R180). DEDUCED (notes/assumptions/17.md): the pseudocode of R150
alone would subtract one from a phase of one or more. -/
def phaseHolds (o : Osc) : Bool := feq o.pinc ZERO && isFinite o.phase

/-- `ADVANCE()` (R150): the new state and whether it wrapped. One is subtracted at most once (R152). -/
def advance (o : Osc) : Osc × Bool :=
  if phaseHolds o then (o, false)
  else if fge (phaseSum o) ONE then (o.writePhase (fsub (phaseSum o) ONE), true)
  else (o.writePhase (phaseSum o), false)

/-! ## Pseudo-random hold -/

/-- `LFSR_STEP(s)` (R155). -/
def lfsrStep (s : U32) : U32 :=
  if s.getLsbD 0 then (s >>> 1) ^^^ 0x80200003#32 else s >>> 1

/-- `PRBS_VALUE(s)` (R157): `(s[31:8] - 2^23) * 2^-23`, which is that many times 2^126 units of
2^-149. -/
def prbsValue (s : U32) : F32 :=
  let u : Nat := (s.extractLsb' 8 24).toNat
  if 8388608 ≤ u then ofParts false (roundUnits ((u - 8388608) * 2 ^ 126) 1)
  else ofParts true (roundUnits ((8388608 - u) * 2 ^ 126) 1)

/-- `ON_WRAP()` (R158): the generator steps before the value is drawn. -/
def onWrap (o : Osc) : Osc :=
  (o.writePrbs (lfsrStep o.prbs)).writeHeld (prbsValue (lfsrStep o.prbs))

/-! ## Depth/offset scaler -/

/-- `SCALE(raw)` (R160): two roundings, not fused. -/
def scale (o : Osc) (raw : F32) : F32 := fadd (fmul raw o.depth) o.offset

/-! ## One-pole smoother -/

/-- The value `FILTER(t)` computes (R162): transparent at coefficient one (R163). -/
def filterValue (o : Osc) (t : F32) : F32 :=
  if feq o.scoef ONE then t
  else fadd o.smoothed (fmul o.scoef (fsub t o.smoothed))

/-- `FILTER(t)` (R162). It returns the new `S.smoothed`. -/
def filter (o : Osc) (t : F32) : Osc := o.writeSmoothed (filterValue o t)

end Sys2Proof.Machine
end

