-- ==== Sys2Proof/Machine/Tick.lean ====
section
/-! DEFINITION. Synthesis-loop control (42_synthesis_loop.md): TICK. -/

namespace Sys2Proof.Machine

/-- Step 1 of R180: an Idle TICK forces the phase to zero and does nothing else (R182). -/
def idleTick (o : Osc) : Osc × Resp := (o.writePhase ZERO, Resp.ofTick o.idle false)

/-- The target of steps a and b of R180: the waveform at the current phase, scaled. -/
def tickTarget (o : Osc) : F32 :=
  scale o (waveValue o.wave o.phase o.shape o.pw o.held)

/-- Step f of R180: a wrap under RandomHold draws a new value. -/
def afterWrap (o : Osc) (wrapped : Bool) : Osc :=
  if wrapped && o.wave == .randomHold then onWrap o else o

/-- Step 2 of R180: a Running TICK, steps a to f in order (R183). -/
def runningTick (o : Osc) : Osc × Resp :=
  let filtered := filter o (tickTarget o)
  let advanced := advance filtered
  (afterWrap advanced.1 advanced.2, Resp.ofTick filtered.smoothed advanced.2)

/-- TICK on `S` (R180). -/
def tickOsc (o : Osc) : Osc × Resp := if isIdle o then idleTick o else runningTick o

/-- TICK (R180). -/
def execTick (s : State) : Host.Outcome State Fault Refusal :=
  .next (s.finish (tickOsc s.osc).1 (tickOsc s.osc).2)

end Sys2Proof.Machine
end

