-- ==== Sys2Proof/Machine/Dispatch.lean ====
section
/-! DEFINITION. The dispatch: one arm per command, each one call of its meaning. -/

namespace Sys2Proof.Machine

def exec (i : Instr) (s : State) : Host.Outcome State Fault Refusal :=
  match i with
  | .nop => Sys2Proof.Machine.execNop s
  | .setFreq d => Sys2Proof.Machine.execSetFreq d s
  | .setWave d => Sys2Proof.Machine.execSetWave d s
  | .setOffset d => Sys2Proof.Machine.execSetOffset d s
  | .setDepth d => Sys2Proof.Machine.execSetDepth d s
  | .setShape d => Sys2Proof.Machine.execSetShape d s
  | .setPw d => Sys2Proof.Machine.execSetPw d s
  | .setSmooth d => Sys2Proof.Machine.execSetSmooth d s
  | .setSr d => Sys2Proof.Machine.execSetSr d s
  | .resetPhase => Sys2Proof.Machine.execResetPhase s
  | .tick => Sys2Proof.Machine.execTick s
  | .read r => Sys2Proof.Machine.execRead r s

end Sys2Proof.Machine
end

