-- ==== Sys2Proof/Machine/Step.lean ====
section
/-! DEFINITION. One step of the machine: the block takes the next command word from the host and
executes it as one atomic transaction (00_scope.md rules R2, R19; 20_memory.md rules R73, R76). -/

namespace Sys2Proof.Machine

/-- One command word: the decoded command, or the illegal-command action (R93). -/
def transact (w : Word) (s : State) : Host.Outcome State Fault Refusal :=
  match decode w with
  | .ok i => exec i s
  | .error _ => .next (illegalCommand s)

/-- One step. With no command issued the block does nothing (R72, R313; notes/assumptions/4.md). -/
def step (s : State) : Host.Outcome State Fault Refusal :=
  match s.pending with
  | [] => .next s
  | w :: rest => transact w { s with pending := rest }

/-- The host issues a word as the next command (notes/assumptions/10.md): the word whose low `nbits`
bits are `w`'s and whose other bits are zero. -/
def State.withFetchWord (s : State) (nbits w : Nat) : State :=
  { s with pending := tableWord nbits w :: s.pending }

end Sys2Proof.Machine
end

