-- ==== Sys2Proof/Machine/CommandList.lean ====
section
/-! DEFINITION. Command lists: the textual syntax (30_encoding.md rule R99) from its tokens on, the
pseudo-command RENDER (rule R100), and the observation of a run (00_scope.md rule R19). -/

namespace Sys2Proof.Machine

/-! ## The textual syntax (R99) -/

/-- An operand as it is written. -/
inductive Token where
  /-- A decimal literal, as a sign and a ratio: `-0.25` is `decimal true 25 100`. -/
  | decimal (neg : Bool) (n d : Nat)
  /-- `0x` and eight hex digits: a bit pattern. -/
  | pattern (v : F32)
  /-- An unsigned integer. -/
  | number (n : Nat)
  /-- A name. -/
  | name (text : String)
  deriving DecidableEq, Repr

/-- A line of a command list. -/
inductive SourceLine where
  /-- A mnemonic with its operand, if any. -/
  | command (mnemonic : String) (operand : Option Token)
  /-- `.word`: a raw command word, which may be illegal. -/
  | word (w : Word)
  /-- `RENDER n` (R100). -/
  | render (n : Nat)
  deriving DecidableEq, Repr

/-- The names of SET_WAVE's operand, in the order of their indices. -/
def waveNames : List String := ["sine", "rampup", "rampdown", "triangle", "square", "randomhold"]

/-- The names of READ's operand, in the order of the register numbers. -/
def registerNames : List String :=
  ["freq", "wave", "offset", "depth", "shape", "pw", "scoef", "sr", "phase", "pinc", "held",
   "smoothed", "idle", "prbs", "status"]

/-- An F32 operand: a decimal literal denotes the binary32 value nearest it. -/
def f32OfToken : Token → Option F32
  | .decimal neg n d => some (f32OfRatio neg n d)
  | .pattern v => some v
  | .number n => some (f32OfRatio false n 1)
  | .name _ => none

/-- A SET_WAVE operand: an unsigned 32-bit integer or a name. -/
def waveOfToken : Token → Option U32
  | .number n => if n < 4294967296 then some (BitVec.ofNat 32 n) else none
  | .name text => (waveNames.findIdx? (· == text)).map (BitVec.ofNat 32)
  | .decimal _ _ _ => none
  | .pattern _ => none

/-- A READ operand: a register number 0..14 or a name. -/
def registerOfToken : Token → Option RegNum
  | .number n => if n < 15 then some (BitVec.ofNat 4 n) else none
  | .name text => (registerNames.findIdx? (· == text)).map (BitVec.ofNat 4)
  | .decimal _ _ _ => none
  | .pattern _ => none

/-- The command a mnemonic and its operand stand for. -/
def commandOf (mnemonic : String) (operand : Option Token) : Option Instr :=
  match mnemonic, operand with
  | "NOP", none => some .nop
  | "RESET_PHASE", none => some .resetPhase
  | "TICK", none => some .tick
  | "SET_FREQ", some t => (f32OfToken t).map .setFreq
  | "SET_WAVE", some t => (waveOfToken t).map .setWave
  | "SET_OFFSET", some t => (f32OfToken t).map .setOffset
  | "SET_DEPTH", some t => (f32OfToken t).map .setDepth
  | "SET_SHAPE", some t => (f32OfToken t).map .setShape
  | "SET_PW", some t => (f32OfToken t).map .setPw
  | "SET_SMOOTH", some t => (f32OfToken t).map .setSmooth
  | "SET_SR", some t => (f32OfToken t).map .setSr
  | "READ", some t => (registerOfToken t).map .read
  | _, _ => none

/-- The TICK word. -/
def tickWord : Word := 0x0A00000000000000#64

/-- `RENDER n`: exactly n consecutive TICK words (R100). -/
def renderWords (n : Nat) : List Word := List.replicate n tickWord

/-- The words of a line; `none` for a line that is no command list text. -/
def assembleLine : SourceLine → Option (List Word)
  | .command mnemonic operand => (commandOf mnemonic operand).map fun i => [encode i]
  | .word w => some [w]
  | .render n => some (renderWords n)

/-- The words of a command list. -/
def assemble : List SourceLine → Option (List Word)
  | [] => some []
  | l :: rest =>
    match assembleLine l, assemble rest with
    | some ws, some more => some (ws ++ more)
    | _, _ => none

/-! ## Runs (R19) -/

/-- The observation of a run, its responses in command order, and the state it ends in. Each command
is applied to the state left by the one before (R19). -/
def observe : List Word → State → List Resp × State
  | [], s => ([], s)
  | w :: ws, s =>
    match transact w s with
    | .next t => (t.resp.toList ++ (observe ws t).1, (observe ws t).2)
    | .fault _ => ([], s)
    | .refused _ => ([], s)

end Sys2Proof.Machine
end

