-- ==== Sys2Proof/Safety.lean ====
section
/-! DEFINITION. What claims are stated in: the legal values of the registers (10_state.md rule R31),
and the ranges the rules speak of. -/

namespace Sys2Proof.Machine

/-- A value in [0, 1] other than `-0.0`. -/
abbrev inUnit (x : F32) : Prop := signOf x = false ∧ fle x ONE = true

/-- A value in [0, 1) other than `-0.0`: where the phase of an oscillator below the sample rate stays
(R151). -/
abbrev inHalfOpenUnit (x : F32) : Prop := signOf x = false ∧ flt x ONE = true

/-- A value in [-1, 1]. -/
abbrev inBipolar (x : F32) : Prop := fle MINUS_ONE x = true ∧ fle x ONE = true

/-- A NaN can only be the canonical one (R12). -/
abbrev canonical (x : F32) : Prop := isNaN x = true → x = QNAN

/-- Every register holds a value that R31 calls legal, and the increment is the quotient of the
frequency and the sample rate (R39). `S.wave` and `S.err` can hold no other values. -/
abbrev Osc.Legal (o : Osc) : Prop :=
  (isNaN o.freq = false ∧ flt o.freq ZERO = false) ∧
  (isNaN o.offset = false ∧ isNaN o.depth = false ∧ isNaN o.shape = false) ∧
  (fle PW_MIN o.pw = true ∧ fle o.pw PW_MAX = true) ∧
  inUnit o.scoef ∧
  (isFinite o.sr = true ∧ fgt o.sr ZERO = true) ∧
  (signOf o.phase = false ∧ isNaN o.phase = false) ∧
  o.pinc = fdiv o.freq o.sr ∧
  inBipolar o.held ∧
  canonical o.smoothed ∧
  isNaN o.idle = false ∧
  o.prbs ≠ 0#32

/-- The machine's invariant. The host's list and the last response are unconstrained. -/
abbrev State.Legal (s : State) : Prop := s.osc.Legal

end Sys2Proof.Machine
end

