-- ==== Sys2Proof/Certificates/Slice0/Obligations.lean ====
section
/-! DEFINITION. The statements for the provers. Each docstring names the rule of the spec that the
statement formalises, or says what it rests on. -/

open Sys2Proof Sys2Proof.Machine

/-- The command a step of `s` would execute: the word at the head of the host's list, decoded. -/
def Sys2Proof.Machine.issued (s : State) : Option Instr :=
  match s.pending with
  | [] => none
  | w :: _ =>
    match decode w with
    | .ok i => some i
    | .error _ => none

/-- A step of `s` would meet an illegal word. -/
def Sys2Proof.Machine.issuesIllegal (s : State) : Prop :=
  ∃ w rest e, s.pending = w :: rest ∧ decode w = .error e

/-! ## Encoding -/

/-- R101: the spec's encoded examples, legal and illegal. -/
def Obligations.SpecWordsDecode : Prop :=
  decode 0x0000000000000000#64 = .ok .nop ∧
  decode 0x010000003F800000#64 = .ok (.setFreq 0x3F800000#32) ∧
  decode 0x0200000000000004#64 = .ok (.setWave 4#32) ∧
  decode 0x0300000000000000#64 = .ok (.setOffset 0x00000000#32) ∧
  decode 0x040000003F800000#64 = .ok (.setDepth 0x3F800000#32) ∧
  decode 0x050000003E800000#64 = .ok (.setShape 0x3E800000#32) ∧
  decode 0x060000003F000000#64 = .ok (.setPw 0x3F000000#32) ∧
  decode 0x070000003F000000#64 = .ok (.setSmooth 0x3F000000#32) ∧
  decode 0x0800000041200000#64 = .ok (.setSr 0x41200000#32) ∧
  decode 0x0900000000000000#64 = .ok .resetPhase ∧
  decode 0x0A00000000000000#64 = .ok .tick ∧
  decode 0x0B00000000000008#64 = .ok (.read 8#4) ∧
  decode 0x0B0000000000000E#64 = .ok (.read 14#4) ∧
  decode 0x0B0000000000000F#64 = .error .noSuchRegister ∧
  decode 0x0C00000000000000#64 = .error .reservedOpcode ∧
  decode 0x0A00000100000000#64 = .error .reservedBits ∧
  decode 0x0A00000000000001#64 = .error .operandNotZero

/-- Decoding a command's word gives the command back, with every operand, for every command there is
(rests on R90-R93). -/
def Obligations.DecodeOfEncodeIsTheCommand : Prop :=
  ∀ i : Instr, i.wellFormed = true → decode (encode i) = .ok i

/-- A legal word is the word of the command it decodes to, so no two words stand for one command and
no bit is ignored (rests on R90-R93). -/
def Obligations.EncodeOfDecodeIsTheWord : Prop :=
  ∀ (w : Word) (i : Instr), decode w = .ok i → encode i = w ∧ i.wellFormed = true

/-- R95: the five cases of an illegal word, and its effect. -/
def Obligations.IllegalWordsAreTheFiveCases : Prop :=
  ∀ w : Word,
    ((∃ e, decode w = .error e) ↔
      (w.extractLsb' 32 24 ≠ 0#24 ∨
       12 ≤ (w.extractLsb' 56 8).toNat ∨
       ((w.extractLsb' 56 8 = 0x00#8 ∨ w.extractLsb' 56 8 = 0x09#8 ∨ w.extractLsb' 56 8 = 0x0A#8) ∧
         w.extractLsb' 0 32 ≠ 0#32) ∨
       (w.extractLsb' 56 8 = 0x0B#8 ∧ w.extractLsb' 4 28 ≠ 0#28) ∨
       (w.extractLsb' 56 8 = 0x0B#8 ∧ w.extractLsb' 0 4 = 0xF#4))) ∧
    (∀ (s : State) (rest : List Word) (e : Illegal), decode w = .error e → s.pending = w :: rest →
      step s = .next
        { osc := { s.osc with err := true }, pending := rest, resp := some Resp.empty })

/-- A word is a command of a table row exactly when it has the row's fixed bits, `RES` is zero, and it
is not READ 15 (rests on R90, R91, R97 and opcode_table.json, whose masks leave out bits 39:32 of
`RES`, notes/assumptions/11.md). No word fits two rows. -/
def Obligations.LegalWordsFitTheOpcodeTable : Prop :=
  (∀ (w : Word) (row : OpcodeRow), row ∈ opcodeTable →
    ((∃ i, decode w = .ok i ∧ mnemonicOf i = row.mnemonic) ↔
      (row.fits w = true ∧ w.extractLsb' 32 24 = 0#24 ∧ w ≠ 0x0B0000000000000F#64))) ∧
  (∀ (w : Word) (r1 r2 : OpcodeRow), r1 ∈ opcodeTable → r2 ∈ opcodeTable →
    r1.fits w = true → r2.fits w = true → r1 = r2)

/-- R71, R72: a byte transport is little-endian and takes whole words only. -/
def Obligations.ByteTransportIsLittleEndian : Prop :=
  (∀ (w : Word) (k : Nat), k < 8 → (bytesOfWord w)[k]? = some (w.extractLsb' (8 * k) 8)) ∧
  (∀ (v : BitVec 32) (k : Nat), k < 4 → (bytesOfResponse v)[k]? = some (v.extractLsb' (8 * k) 8)) ∧
  (∀ (w : Word) (rest : List Byte), wordOfBytes (bytesOfWord w ++ rest) = some (w, rest)) ∧
  (∀ bs : List Byte, bs.length < 8 → decodeBytes bs = none)

/-! ## Steps -/

/-- A step executes the command at the head of the host's list and takes it off (rests on R2, R19,
R93; the list is the model's own, notes/assumptions/2.md). -/
def Obligations.StepRunsTheDecodedCommand : Prop :=
  ∀ (s : State) (w : Word) (rest : List Word) (i : Instr),
    s.pending = w :: rest → decode w = .ok i →
    step s = exec i { s with pending := rest }

/-- With no command issued a step changes nothing (rests on R72 and R313; the model's reading,
notes/assumptions/4.md). -/
def Obligations.StepWithoutCommandChangesNothing : Prop :=
  ∀ s : State, s.pending = [] → step s = .next s

/-- R300: an illegal word sets `S.err`, changes nothing else and gives the empty response; `S.err` is
sticky, and STATUS shows it; the next step executes the next word. -/
def Obligations.IllegalCommandSetsStickyErr : Prop :=
  (∀ (s : State) (w : Word) (rest : List Word) (e : Illegal),
    s.pending = w :: rest → decode w = .error e →
    step s = .next
      { osc := { s.osc with err := true }, pending := rest, resp := some Resp.empty }) ∧
  (∀ s t : State, step s = .next t → s.osc.err = true → t.osc.err = true) ∧
  (∀ o : Osc, (status o).getLsbD 1 = o.err)

/-- Every command, and so every step, completes, in every state (rests on R188, R300, R308 and R420).
The model's readings are part of it: that nothing ever faults or refuses (notes/assumptions/15.md),
that `exec` of the ill-formed READ 15 completes (9.md), and that a step with no word issued does
(4.md). -/
def Obligations.EveryCommandCompletes : Prop :=
  (∀ (i : Instr) (s : State), ∃ t, exec i s = .next t ∧ t.pending = s.pending) ∧
  (∀ s : State, ∃ t, step s = .next t)

/-- R18: one response for every command; a sample only for TICK, a register value only for READ. -/
def Obligations.EveryCommandGivesOneResponse : Prop :=
  ∀ (s t : State) (w : Word) (rest : List Word),
    s.pending = w :: rest → step s = .next t →
    ∃ r, t.resp = some r ∧ t.pending = rest ∧
      (r.sample.isSome = true ↔ issued s = some .tick) ∧
      (r.rdata.isSome = true ↔ ∃ n, issued s = some (.read n)) ∧
      (issuesIllegal s → r = Resp.empty)

/-- Exactly two sources raise the cycle-wrap event, a Running TICK whose ADVANCE wraps and RESET_PHASE,
every time (rests on R303, R150, R184 and R209). The model's reading of where ADVANCE wraps is that of
ruling C3 against R150's pseudocode: a zero increment never wraps a finite phase
(notes/assumptions/17.md). -/
def Obligations.WrapEventHasTwoSources : Prop :=
  ∀ (s t : State) (w : Word) (rest : List Word) (r : Resp),
    s.pending = w :: rest → step s = .next t → t.resp = some r →
    (r.wrap = true ↔
      (issued s = some .resetPhase ∨
       (issued s = some .tick ∧ fle s.osc.freq ZERO = false ∧
        ¬(feq s.osc.pinc ZERO = true ∧ isFinite s.osc.phase = true) ∧
        fge (fadd s.osc.phase s.osc.pinc) ONE = true)))

/-- What a step does to the block, and its response, depend on the block's state and the word alone:
not on an earlier response, nor on the words the host has still to issue (rests on R19, R30, R76; the list
and the held response are the model's own, notes/assumptions/2.md and 3.md). -/
def Obligations.StepDependsOnBlockStateOnly : Prop :=
  ∀ (s s' t t' : State) (w : Word) (rest rest' : List Word),
    s.osc = s'.osc → s.pending = w :: rest → s'.pending = w :: rest' →
    step s = .next t → step s' = .next t' →
    t.osc = t'.osc ∧ t.resp = t'.resp

/-- Running the host's list by steps gives the state that the observation of the list gives (rests on
R19; the list is the model's own, notes/assumptions/2.md). -/
def Obligations.StepsGiveTheObservedState : Prop :=
  ∀ (ws : List Word) (s : State),
    Host.Core.run Sys2Proof.core ws.length { s with pending := ws } =
      .next { (observe ws s).2 with pending := [] }

/-! ## Setters -/

/-- R201: SET_FREQ, its encoding and its effect. -/
def Obligations.SetFreqWritesFrequencyAndIncrement : Prop :=
  ∀ (d : F32) (s : State),
    decode (0x01#8 ++ 0x000000#24 ++ d) = .ok (.setFreq d) ∧
    (isNaN d = true → exec (.setFreq d) s = .next { s with resp := some Resp.empty }) ∧
    (flt d ZERO = true →
      exec (.setFreq d) s = .next
        { s with
          osc := { s.osc with freq := ZERO, pinc := fdiv ZERO s.osc.sr }
          resp := some Resp.empty }) ∧
    (isNaN d = false → flt d ZERO = false →
      exec (.setFreq d) s = .next
        { s with
          osc := { s.osc with freq := d, pinc := fdiv d s.osc.sr }
          resp := some Resp.empty })

/-- R202: SET_WAVE, its encoding and its effect, with the order of R33. -/
def Obligations.SetWaveSelectsByIndex : Prop :=
  ∀ (d : U32) (s : State),
    decode (0x02#8 ++ 0x000000#24 ++ d) = .ok (.setWave d) ∧
    (∀ w : Waveform,
      d = (match w with
        | .sine => 0#32 | .rampUp => 1#32 | .rampDown => 2#32
        | .triangle => 3#32 | .square => 4#32 | .randomHold => 5#32) →
      exec (.setWave d) s = .next
        { s with osc := { s.osc with wave := w }, resp := some Resp.empty }) ∧
    (5 < d.toNat → exec (.setWave d) s = .next { s with resp := some Resp.empty })

/-- R203, R204, R205: SET_OFFSET, SET_DEPTH and SET_SHAPE store any operand but a NaN; their encodings. -/
def Obligations.SetOffsetDepthShapeStoreTheOperand : Prop :=
  ∀ (d : F32) (s : State),
    decode (0x03#8 ++ 0x000000#24 ++ d) = .ok (.setOffset d) ∧
    decode (0x04#8 ++ 0x000000#24 ++ d) = .ok (.setDepth d) ∧
    decode (0x05#8 ++ 0x000000#24 ++ d) = .ok (.setShape d) ∧
    (isNaN d = true →
      exec (.setOffset d) s = .next { s with resp := some Resp.empty } ∧
      exec (.setDepth d) s = .next { s with resp := some Resp.empty } ∧
      exec (.setShape d) s = .next { s with resp := some Resp.empty }) ∧
    (isNaN d = false →
      exec (.setOffset d) s = .next
        { s with osc := { s.osc with offset := d }, resp := some Resp.empty } ∧
      exec (.setDepth d) s = .next
        { s with osc := { s.osc with depth := d }, resp := some Resp.empty } ∧
      exec (.setShape d) s = .next
        { s with osc := { s.osc with shape := d }, resp := some Resp.empty })

/-- R206: SET_PW, its encoding, and the clamp to the binary32 roundings of 0.01 and 0.99. -/
def Obligations.SetPwClamps : Prop :=
  ∀ (d : F32) (s : State),
    decode (0x06#8 ++ 0x000000#24 ++ d) = .ok (.setPw d) ∧
    (isNaN d = true → exec (.setPw d) s = .next { s with resp := some Resp.empty }) ∧
    (flt d 0x3C23D70A#32 = true → exec (.setPw d) s = .next
      { s with osc := { s.osc with pw := 0x3C23D70A#32 }, resp := some Resp.empty }) ∧
    (fgt d 0x3F7D70A4#32 = true → exec (.setPw d) s = .next
      { s with osc := { s.osc with pw := 0x3F7D70A4#32 }, resp := some Resp.empty }) ∧
    (fle 0x3C23D70A#32 d = true → fle d 0x3F7D70A4#32 = true → exec (.setPw d) s = .next
      { s with osc := { s.osc with pw := d }, resp := some Resp.empty })

/-- R207: SET_SMOOTH, its encoding; it stores one minus the clamped operand: transparent for an operand of zero or
less, `-0.0` among them, frozen for one or more. -/
def Obligations.SetSmoothStoresOneMinusOperand : Prop :=
  ∀ (d : F32) (s : State),
    decode (0x07#8 ++ 0x000000#24 ++ d) = .ok (.setSmooth d) ∧
    (isNaN d = true → exec (.setSmooth d) s = .next { s with resp := some Resp.empty }) ∧
    (fle d ZERO = true → exec (.setSmooth d) s = .next
      { s with osc := { s.osc with scoef := ONE }, resp := some Resp.empty }) ∧
    (fge d ONE = true → exec (.setSmooth d) s = .next
      { s with osc := { s.osc with scoef := ZERO }, resp := some Resp.empty }) ∧
    (fgt d ZERO = true → flt d ONE = true → exec (.setSmooth d) s = .next
      { s with osc := { s.osc with scoef := fsub ONE d }, resp := some Resp.empty })

/-- R208: SET_SR, its encoding; it accepts a finite operand greater than zero, and ignores every
other. -/
def Obligations.SetSrAcceptsFinitePositive : Prop :=
  ∀ (d : F32) (s : State),
    decode (0x08#8 ++ 0x000000#24 ++ d) = .ok (.setSr d) ∧
    (isNaN d = true ∨ isInf d = true ∨ fgt d ZERO = false →
      exec (.setSr d) s = .next { s with resp := some Resp.empty }) ∧
    (isFinite d = true → fgt d ZERO = true →
      exec (.setSr d) s = .next
        { s with
          osc := { s.osc with sr := d, pinc := fdiv s.osc.freq d }
          resp := some Resp.empty })

/-- The increments SET_FREQ leaves in the corner cases of R201, for every sample rate the block can
hold: `+0.0` for a negative frequency, `-0.0` for `-0.0`, `+inf` for `+inf`. -/
def Obligations.SetFreqCornerIncrements : Prop :=
  ∀ s : State, isFinite s.osc.sr = true → fgt s.osc.sr ZERO = true →
    (∀ d, flt d ZERO = true → ∃ t, exec (.setFreq d) s = .next t ∧
      t.osc.freq = ZERO ∧ t.osc.pinc = ZERO ∧ fle t.osc.freq ZERO = true) ∧
    (∃ t, exec (.setFreq NEG_ZERO) s = .next t ∧
      t.osc.freq = NEG_ZERO ∧ t.osc.pinc = NEG_ZERO ∧ fle t.osc.freq ZERO = true) ∧
    (∃ t, exec (.setFreq INF) s = .next t ∧
      t.osc.freq = INF ∧ t.osc.pinc = INF ∧ fle t.osc.freq ZERO = false)

/-- R74: READ and NOP change no state; the setters, RESET_PHASE and an illegal word are idempotent,
and RESET_PHASE raises its event each time; TICK is not idempotent. -/
def Obligations.CommandsButTickAreIdempotent : Prop :=
  (∀ (r : RegNum) (s t : State), r ≠ 15#4 → exec (.read r) s = .next t → t.osc = s.osc) ∧
  (∀ s t : State, exec .nop s = .next t → t.osc = s.osc) ∧
  (∀ (i : Instr) (s t u : State), i ≠ .tick →
    exec i s = .next t → exec i t = .next u → u.osc = t.osc) ∧
  (∀ s t u : State, exec .resetPhase s = .next t → exec .resetPhase t = .next u →
    t.resp = some Resp.ofWrap ∧ u.resp = some Resp.ofWrap) ∧
  (∃ s t u : State, exec .tick s = .next t ∧ exec .tick t = .next u ∧ u.osc ≠ t.osc) ∧
  (∀ (w : Word) (e : Illegal) (s t u : State), decode w = .error e →
    transact w s = .next t → transact w t = .next u →
    t.osc = { s.osc with err := true } ∧ u.osc = t.osc)

/-! ## Phase reset, read, no-op -/

/-- R209: RESET_PHASE, its encoding and its effect, in either control state. -/
def Obligations.ResetPhaseZeroesPhaseAndNotifies : Prop :=
  decode (0x09#8 ++ 0x000000#24 ++ 0x00000000#32) = .ok .resetPhase ∧
  ∀ s : State, exec .resetPhase s = .next
    { s with
      osc := { s.osc with phase := 0x00000000#32 }
      resp := some { sample := none, wrap := true, rdata := none } }

/-- R211: NOP, its encoding, a NOP with an operand, and its effect. -/
def Obligations.NopDoesNothing : Prop :=
  decode 0x0000000000000000#64 = .ok .nop ∧
  (∀ d : BitVec 32, d ≠ 0#32 → decode (0x00#8 ++ 0x000000#24 ++ d) = .error .operandNotZero) ∧
  ∀ s : State, exec .nop s = .next { s with resp := some Resp.empty }

/-- READ, its encoding, and its value register by register (rests on R210, R43 and R44). The last clause
is the model's reading (notes/assumptions/9.md): no word decodes to READ 15, and `exec` of that
ill-formed command is the illegal-command action. -/
def Obligations.ReadReturnsTheRegister : Prop :=
  (∀ r : RegNum, r ≠ 15#4 →
    decode (0x0B#8 ++ 0x000000#24 ++ 0x0000000#28 ++ r) = .ok (.read r)) ∧
  ∀ s : State,
    (∀ (r : RegNum) (v : U32),
      (r = 0#4 ∧ v = s.osc.freq) ∨
      (r = 1#4 ∧ v = (match s.osc.wave with
        | .sine => 0#32 | .rampUp => 1#32 | .rampDown => 2#32
        | .triangle => 3#32 | .square => 4#32 | .randomHold => 5#32)) ∨
      (r = 2#4 ∧ v = s.osc.offset) ∨ (r = 3#4 ∧ v = s.osc.depth) ∨
      (r = 4#4 ∧ v = s.osc.shape) ∨ (r = 5#4 ∧ v = s.osc.pw) ∨
      (r = 6#4 ∧ v = s.osc.scoef) ∨ (r = 7#4 ∧ v = s.osc.sr) ∨
      (r = 8#4 ∧ v = s.osc.phase) ∨ (r = 9#4 ∧ v = s.osc.pinc) ∨
      (r = 10#4 ∧ v = s.osc.held) ∨ (r = 11#4 ∧ v = s.osc.smoothed) ∨
      (r = 12#4 ∧ v = s.osc.idle) ∨ (r = 13#4 ∧ v = s.osc.prbs) ∨
      (r = 14#4 ∧ v = 0#30 ++ BitVec.ofBool s.osc.err ++ BitVec.ofBool (!fle s.osc.freq ZERO)) →
      exec (.read r) s = .next
        { s with resp := some { sample := none, wrap := false, rdata := some v } }) ∧
    exec (.read 15#4) s = .next
      { s with osc := { s.osc with err := true }, resp := some Resp.empty }

/-- R44: the bits of STATUS. -/
def Obligations.StatusBits : Prop :=
  ∀ o : Osc,
    (status o).getLsbD 0 = !fle o.freq ZERO ∧
    (status o).getLsbD 1 = o.err ∧
    ∀ k, 2 ≤ k → (status o).getLsbD k = false

/-! ## TICK -/

/-- Only SET_FREQ moves the block between Idle and Running, and STATUS.RUN shows which of the two the
next TICK finds; Idle is the test of the frequency against zero, which both zeros meet and no positive
frequency does (rests on R181 and R185). -/
def Obligations.OnlySetFreqMovesTheControlState : Prop :=
  (∀ s t : State, step s = .next t → isIdle t.osc ≠ isIdle s.osc →
    ∃ d, issued s = some (.setFreq d) ∧ isNaN d = false) ∧
  (∀ o : Osc, (status o).getLsbD 0 = !isIdle o) ∧
  (∀ o : Osc, isIdle o = fle o.freq ZERO) ∧
  (∀ o : Osc, o.freq = ZERO ∨ o.freq = NEG_ZERO → isIdle o = true) ∧
  (∀ o : Osc, fgt o.freq ZERO = true → isIdle o = false)

/-- TICK, its encoding, its Idle branch, and its Running branch, steps a to f, with every register named;
its wrap is that of its advance (rests on R180 and R182 to R184, and on R150, R158, R160 and R162,
which it writes out). The model's reading: a zero increment holds a finite phase, as ruling C3 and the
corner cases of R150 and R180 say against R150's pseudocode (notes/assumptions/17.md). -/
def Obligations.TickRunsStepsInOrder : Prop :=
  decode (0x0A#8 ++ 0x000000#24 ++ 0x00000000#32) = .ok .tick ∧
  (∀ s : State, fle s.osc.freq ZERO = true →
    exec .tick s = .next
      { s with
        osc := { s.osc with phase := 0x00000000#32 }
        resp := some { sample := some s.osc.idle, wrap := false, rdata := none } }) ∧
  ∀ s : State, fle s.osc.freq ZERO = false →
    let raw := waveValue s.osc.wave s.osc.phase s.osc.shape s.osc.pw s.osc.held
    let target := fadd (fmul raw s.osc.depth) s.osc.offset
    let out := if feq s.osc.scoef ONE then target
      else fadd s.osc.smoothed (fmul s.osc.scoef (fsub target s.osc.smoothed))
    let holds := feq s.osc.pinc ZERO && isFinite s.osc.phase
    let p := fadd s.osc.phase s.osc.pinc
    let wrapped := !holds && fge p ONE
    let draws := wrapped && decide (s.osc.wave = .randomHold)
    exec .tick s = .next
      { s with
        osc := { s.osc with
          smoothed := out
          phase := if holds then s.osc.phase else if wrapped then fsub p ONE else p
          prbs := if draws then lfsrStep s.osc.prbs else s.osc.prbs
          held := if draws then prbsValue (lfsrStep s.osc.prbs) else s.osc.held }
        resp := some { sample := some out, wrap := wrapped, rdata := none } }

/-- R186: the Idle law, for a block of any length. -/
def Obligations.IdleLaw : Prop :=
  ∀ (n : Nat) (s : State), fle s.osc.freq ZERO = true →
    (observe (renderWords n) s).1 =
      List.replicate n { sample := some s.osc.idle, wrap := false, rdata := none } ∧
    (observe (renderWords n) s).2.osc =
      (if n = 0 then s.osc else { s.osc with phase := ZERO })

/-- R187: a block is its TICKs: an empty block has no effect, and a split block gives the same
responses and the same end state. -/
def Obligations.BlocksSplit : Prop :=
  (∀ n : Nat, renderWords n = List.replicate n 0x0A00000000000000#64) ∧
  (∀ s : State, observe (renderWords 0) s = ([], s)) ∧
  (∀ (a b : Nat) (s : State),
    observe (renderWords (a + b)) s =
      ((observe (renderWords a) s).1 ++ (observe (renderWords b) (observe (renderWords a) s).2).1,
       (observe (renderWords b) (observe (renderWords a) s).2).2))

/-- Under RandomHold the held value, and so every sample's waveform value, stays one value through a
block in which no response reports a wrap (rests on R159). -/
def Obligations.HeldIsConstantBetweenWraps : Prop :=
  ∀ (n : Nat) (s : State), s.osc.wave = .randomHold →
    (∀ r ∈ (observe (renderWords n) s).1, r.wrap = false) →
    (observe (renderWords n) s).2.osc.held = s.osc.held ∧
    (observe (renderWords n) s).2.osc.prbs = s.osc.prbs ∧
    waveValue (observe (renderWords n) s).2.osc.wave (observe (renderWords n) s).2.osc.phase
      (observe (renderWords n) s).2.osc.shape (observe (renderWords n) s).2.osc.pw
      (observe (renderWords n) s).2.osc.held = s.osc.held

/-! ## Waveform engine -/

/-- R123: the dispatch, with the evaluators of R124 to R129 written out, their constants as the
patterns of R15. -/
def Obligations.WaveDispatch : Prop :=
  ∀ ph s pw held : F32,
    waveValue .sine ph s pw held = Config.sinF32 (fmul 0x40C90FDB#32 ph) ∧
    waveValue .rampUp ph s pw held =
      fsub (fmul 0x40000000#32 (shapeCurve (clampf ph 0x00000000#32 0x3F800000#32) s))
        0x3F800000#32 ∧
    waveValue .rampDown ph s pw held =
      fsub 0x3F800000#32
        (fmul 0x40000000#32 (shapeCurve (clampf ph 0x00000000#32 0x3F800000#32) s)) ∧
    waveValue .triangle ph s pw held =
      (let p := fmul 0x40000000#32 ph
       if flt p 0x3F800000#32
        then fsub (fmul 0x40000000#32 (shapeCurve (clampf p 0x00000000#32 0x3F800000#32) s))
          0x3F800000#32
        else fsub 0x3F800000#32
          (fmul 0x40000000#32
            (shapeCurve (clampf (fsub p 0x3F800000#32) 0x00000000#32 0x3F800000#32) s))) ∧
    waveValue .square ph s pw held = (if flt ph pw then 0x3F800000#32 else 0xBF800000#32) ∧
    waveValue .randomHold ph s pw held = held

/-- ShapeCurve, its three branches with the constants as the patterns of R15: the identity for either
zero shape, the convex power for a positive one, the concave one for a negative one; and fixed end
points for every shape that is no NaN (rests on R120 and the laws of R17). -/
def Obligations.ShapeCurveIdentityAndEndPoints : Prop :=
  (∀ x : F32, shapeCurve x ZERO = x ∧ shapeCurve x NEG_ZERO = x) ∧
  (∀ x s : F32,
    (fgt s 0x00000000#32 = true →
      shapeCurve x s = Config.powF32 x (fadd 0x3F800000#32 (fmul 0x40800000#32 s))) ∧
    (flt s 0x00000000#32 = true →
      shapeCurve x s =
        fsub 0x3F800000#32
          (Config.powF32 (fsub 0x3F800000#32 x) (fsub 0x3F800000#32 (fmul 0x40800000#32 s))))) ∧
  (∀ s : F32, isNaN s = false → shapeCurve ZERO s = ZERO ∧ shapeCurve ONE s = ONE)

/-- R121: in every call of ShapeCurve that the evaluators make, the power it calls has a base in
[0, 1], never `-0.0`, and an exponent of one or more, and the result is in [0, 1]. -/
def Obligations.ShapeCurveStaysInDomain : Prop :=
  (∀ x s : F32, inUnit x → isNaN s = false →
    (fgt s ZERO = true →
      shapeCurve x s = Config.powF32 x (fadd ONE (fmul FOUR s)) ∧
      Config.powBase x = true ∧ Config.powExp (fadd ONE (fmul FOUR s)) = true) ∧
    (flt s ZERO = true →
      shapeCurve x s = fsub ONE (Config.powF32 (fsub ONE x) (fsub ONE (fmul FOUR s))) ∧
      Config.powBase (fsub ONE x) = true ∧ Config.powExp (fsub ONE (fmul FOUR s)) = true) ∧
    fle ZERO (shapeCurve x s) = true ∧ fle (shapeCurve x s) ONE = true) ∧
  (∀ ph : F32, signOf ph = false → isNaN ph = false →
    inUnit (clamp01 ph) ∧ inUnit (clamp01 (fmul TWO ph)) ∧
    (flt (fmul TWO ph) ONE = false → inUnit (clamp01 (fsub (fmul TWO ph) ONE))))

/-- The values the ramps and the triangle take at their corner phases, for every shape that is no NaN
(rests on the corner cases of R125, R126, R127). -/
def Obligations.RampAndTriangleCorners : Prop :=
  ∀ s : F32, isNaN s = false →
    rampUpWave ZERO s = MINUS_ONE ∧ rampDownWave ZERO s = ONE ∧ triangleWave ZERO s = MINUS_ONE ∧
    triangleWave HALF s = ONE ∧
    (∀ ph : F32, fge ph ONE = true →
      rampUpWave ph s = ONE ∧ rampDownWave ph s = MINUS_ONE ∧ triangleWave ph s = MINUS_ONE)

/-- With equal operands RampDown is the negation of RampUp, except that a zero is `+0.0` in both
(rests on R126). -/
def Obligations.RampDownNegatesRampUp : Prop :=
  ∀ ph s : F32, signOf ph = false → isNaN ph = false → isNaN s = false →
    (isZero (rampUpWave ph s) = true → rampUpWave ph s = ZERO ∧ rampDownWave ph s = ZERO) ∧
    (isZero (rampUpWave ph s) = false → rampDownWave ph s = fneg (rampUpWave ph s))

/-- R128: the square wave, with its strict tie-break. -/
def Obligations.SquareTieBreak : Prop :=
  ∀ ph pw : F32,
    (flt ph pw = true → squareWave ph pw = ONE) ∧
    (fge ph pw = true → squareWave ph pw = MINUS_ONE) ∧
    (isNaN ph = false → squareWave ph ph = MINUS_ONE) ∧
    (squareWave ph pw = ONE ∨ squareWave ph pw = MINUS_ONE)

/-- In every legal state the waveform's value is in [-1, 1], or it is the canonical NaN of the sine
whose argument is not finite (rests on R124-R130 with the rounding of R11: a finite phase above about
5.4e37 also gives such an argument, notes/assumptions/12.md). -/
def Obligations.WaveformIsBipolarOrSineNaN : Prop :=
  ∀ o : Osc, o.Legal →
    inBipolar (waveValue o.wave o.phase o.shape o.pw o.held) ∨
    (o.wave = .sine ∧ isFinite (fmul TWO_PI o.phase) = false ∧
      waveValue o.wave o.phase o.shape o.pw o.held = QNAN)

/-- R130's last sentences, read as they stand: in every state a list of commands reaches from reset,
the waveform's value is in [-1, 1], or it is the NaN of the sine at an INFINITE phase. Expected to
FAIL: the rounded product of two pi and a large finite phase is infinite, and the sine of it is NaN
(notes/assumptions/12.md). -/
def Obligations.SineNaNOnlyAtInfinitePhase : Prop :=
  ∀ ws : List Word,
    let o := (observe ws State.reset).2.osc
    inBipolar (waveValue o.wave o.phase o.shape o.pw o.held) ∨
    (o.wave = .sine ∧ o.phase = INF ∧
      waveValue o.wave o.phase o.shape o.pw o.held = QNAN)

/-! ## Phase accumulator -/

/-- R151: below an increment of one, ADVANCE keeps the phase in [0, 1). -/
def Obligations.AdvanceKeepsPhaseBelowOne : Prop :=
  ∀ o : Osc, inHalfOpenUnit o.phase → fle ZERO o.pinc = true → flt o.pinc ONE = true →
    inHalfOpenUnit (advance o).1.phase

/-- A wrap subtracts exactly one, without rounding, from a sum below two, whenever the increment is not
zero; at a zero increment a finite phase stays and does not wrap; and the sum is below two whenever
phase and increment are below one (rests on R150). That a zero increment holds a phase of one or more
too is the model's reading, from ruling C3 and R150's corner case against its pseudocode
(notes/assumptions/17.md). -/
def Obligations.WrapSubtractsExactlyOne : Prop :=
  (∀ o : Osc, feq o.pinc ZERO = false →
    fge (fadd o.phase o.pinc) ONE = true → flt (fadd o.phase o.pinc) TWO = true →
    (advance o).2 = true ∧
    signedUnits (advance o).1.phase = signedUnits (fadd o.phase o.pinc) - signedUnits ONE) ∧
  (∀ o : Osc, feq o.pinc ZERO = true → isFinite o.phase = true →
    (advance o).1 = o ∧ (advance o).2 = false) ∧
  (∀ o : Osc, inHalfOpenUnit o.phase → fle ZERO o.pinc = true → flt o.pinc ONE = true →
    flt (fadd o.phase o.pinc) TWO = true)

/-- At an infinite increment the phase becomes `+inf`; an infinite phase stays, every advance wrapping; at
an increment of `+0.0` a finite phase stays and does not wrap (rests on R150, corner cases, and on
ruling C3). The model's readings (notes/assumptions/17.md): the last against R150's pseudocode at a
phase of one or more, and the wrap at an infinite phase and an increment of `+0.0`, of which R150's
corner cases say both. For a legal state the increment is no NaN, and is `-0.0` or not negative (rests
on R39), and Idle holds exactly when the frequency is a zero of either sign (rests on R181). -/
def Obligations.IncrementRangeAndInfinitePhase : Prop :=
  (∀ o : Osc, signOf o.phase = false → isNaN o.phase = false → o.pinc = INF →
    (advance o).1 = { o with phase := INF } ∧ (advance o).2 = true) ∧
  (∀ o : Osc, o.phase = INF → fle ZERO o.pinc = true →
    (advance o).1 = o ∧ (advance o).2 = true) ∧
  (∀ o : Osc, isFinite o.phase = true → o.pinc = ZERO →
    (advance o).1 = o ∧ (advance o).2 = false) ∧
  (∀ o : Osc, o.Legal →
    isNaN o.pinc = false ∧ (signOf o.pinc = false ∨ o.pinc = NEG_ZERO) ∧
    (isIdle o = true ↔ (o.freq = ZERO ∨ o.freq = NEG_ZERO)))

/-! ## Pseudo-random hold -/

/-- R156: the generator's step (R155) takes no state that is not zero to zero; so a generator that is
not zero stays so in every step of the machine, and reset leaves it so. -/
def Obligations.GeneratorIsNeverZero : Prop :=
  (∀ s : U32, lfsrStep s = (if s.getLsbD 0 then (s >>> 1) ^^^ 0x80200003#32 else s >>> 1)) ∧
  (∀ s : U32, s ≠ 0#32 → lfsrStep s ≠ 0#32) ∧
  (∀ s t : State, step s = .next t → s.osc.prbs ≠ 0#32 → t.osc.prbs ≠ 0#32) ∧
  (∀ p : Config.Params, (State.resetWith p).osc.prbs ≠ 0#32)

/-- R157: the value drawn is exact, `(s[31:8] - 2^23) * 2^-23` (that many times 2^126 units of
2^-149), and lies in [-1, 1 - 2^-23]. -/
def Obligations.PrbsValueIsExact : Prop :=
  ∀ s : U32,
    isFinite (prbsValue s) = true ∧
    signedUnits (prbsValue s) = (((s.toNat / 256 : Nat) : Int) - 8388608) * 2 ^ 126 ∧
    fle MINUS_ONE (prbsValue s) = true ∧ fle (prbsValue s) 0x3F7FFFFE#32 = true

/-- R158: the generator and the held value change only by a step of a Running TICK under RandomHold
whose response reports the wrap, and then the generator steps once and its new state gives the
value. -/
def Obligations.DrawOnlyAtQualifyingWrap : Prop :=
  ∀ s t : State, step s = .next t →
    (t.osc.prbs = s.osc.prbs ∧ t.osc.held = s.osc.held) ∨
    (issued s = some .tick ∧ fle s.osc.freq ZERO = false ∧ s.osc.wave = .randomHold ∧
      (∃ r, t.resp = some r ∧ r.wrap = true) ∧
      t.osc.prbs = lfsrStep s.osc.prbs ∧ t.osc.held = prbsValue (lfsrStep s.osc.prbs))

/-! ## Scaler and smoother -/

/-- R160: the scaler multiplies, then adds. Its corner cases: a zero depth gives the offset, and the
canonical NaN comes from a zero value at an infinite depth, from opposite infinities, and from a
NaN. -/
def Obligations.ScalerCorners : Prop :=
  ∀ (o : Osc) (raw : F32),
    scale o raw = fadd (fmul raw o.depth) o.offset ∧
    (isZero o.depth = true → isFinite raw = true → isNaN o.offset = false →
      isZero o.offset = false → scale o raw = o.offset) ∧
    (isInf o.depth = true → isZero raw = true → scale o raw = QNAN) ∧
    (isInf (fmul raw o.depth) = true → isInf o.offset = true →
      signOf (fmul raw o.depth) ≠ signOf o.offset → scale o raw = QNAN) ∧
    (isNaN raw = true → scale o raw = QNAN)

/-- R163: at coefficient one the smoother is transparent, in every Running TICK; the plain formula
would not be. -/
def Obligations.SmootherIsTransparentAtOne : Prop :=
  (∀ s : State, fle s.osc.freq ZERO = false → s.osc.scoef = ONE →
    ∃ t r, exec .tick s = .next t ∧ t.resp = some r ∧
      r.sample = some (scale s.osc (waveValue s.osc.wave s.osc.phase s.osc.shape s.osc.pw s.osc.held)) ∧
      t.osc.smoothed =
        scale s.osc (waveValue s.osc.wave s.osc.phase s.osc.shape s.osc.pw s.osc.held)) ∧
  fadd 0x3DCCCCCD#32 (fsub 0x314E288F#32 0x3DCCCCCD#32) = ZERO

/-- R164: at coefficient `+0.0` the smoother holds a finite value, but for `-0.0`, which becomes
`+0.0` when the difference is positive or `+0.0`; a difference that is not finite gives NaN, whatever
the value, and so does every value that is not finite. -/
def Obligations.SmootherFreezesAtZero : Prop :=
  ∀ (o : Osc) (t : F32), o.scoef = ZERO →
    (isFinite o.smoothed = true → isFinite (fsub t o.smoothed) = true → o.smoothed ≠ NEG_ZERO →
      filterValue o t = o.smoothed) ∧
    (isFinite (fsub t o.smoothed) = true → o.smoothed = NEG_ZERO →
      filterValue o t = (if signOf (fsub t o.smoothed) then NEG_ZERO else ZERO)) ∧
    (isFinite (fsub t o.smoothed) = false → filterValue o t = QNAN) ∧
    (isFinite o.smoothed = false → filterValue o t = QNAN)

/-- Below coefficient one, a NaN or infinite filter memory is never cleared by a finite target (rests
on R162, corner cases). -/
def Obligations.NonFiniteMemoryStays : Prop :=
  ∀ (o : Osc) (t : F32), inUnit o.scoef → feq o.scoef ONE = false →
    isFinite o.smoothed = false → isFinite t = true →
    isFinite (filterValue o t) = false

/-! ## Reset -/

/-- R47: every register after reset, for every value of the creation-time parameters. -/
def Obligations.ResetValues : Prop :=
  ∀ p : Config.Params,
    (State.resetWith p).osc.wave = .sine ∧
    (State.resetWith p).osc.offset = 0x00000000#32 ∧
    (State.resetWith p).osc.depth = 0x3F800000#32 ∧
    (State.resetWith p).osc.shape = 0x00000000#32 ∧
    (State.resetWith p).osc.pw = 0x3F000000#32 ∧
    (State.resetWith p).osc.scoef = 0x3F800000#32 ∧
    (State.resetWith p).osc.sr = p.srPlaceholder ∧
    (State.resetWith p).osc.phase = 0x00000000#32 ∧
    (State.resetWith p).osc.pinc =
      fdiv (State.resetWith p).osc.freq (State.resetWith p).osc.sr ∧
    (State.resetWith p).osc.held = 0x00000000#32 ∧
    (State.resetWith p).osc.smoothed = 0x00000000#32 ∧
    (State.resetWith p).osc.err = false ∧
    (∀ f, p.initFreq = some f → isNaN f = false → fgt f ZERO = true →
      (State.resetWith p).osc.freq = f) ∧
    (∀ f, p.initFreq = some f → (isNaN f = true ∨ fgt f ZERO = false) →
      (State.resetWith p).osc.freq = p.defaultFreq) ∧
    (p.initFreq = none → (State.resetWith p).osc.freq = p.defaultFreq) ∧
    (∀ f, p.idleLevelInit = some f → isNaN f = false → (State.resetWith p).osc.idle = f) ∧
    (∀ f, p.idleLevelInit = some f → isNaN f = true →
      (State.resetWith p).osc.idle = 0x00000000#32) ∧
    (p.idleLevelInit = none → (State.resetWith p).osc.idle = 0x00000000#32) ∧
    (p.prbsSeed ≠ 0#32 → (State.resetWith p).osc.prbs = p.prbsSeed) ∧
    (p.prbsSeed = 0#32 → (State.resetWith p).osc.prbs = 0x00000001#32)

/-- The registers after reset with the default parameters of R6 (rests on R6, R401, R402, R404). The
model's choices: the machine is created with the defaults (notes/assumptions/1.md), with no command
issued and no response (2.md, 3.md). -/
def Obligations.DefaultResetValues : Prop :=
  State.reset.osc.freq = 0x3F800000#32 ∧ State.reset.osc.sr = 0x472C4400#32 ∧
  State.reset.osc.pinc = 0x37BE37C6#32 ∧ State.reset.osc.idle = 0x00000000#32 ∧
  State.reset.osc.prbs = 0x00000001#32 ∧ status State.reset.osc = 0x00000001#32 ∧
  State.reset.pending = [] ∧ State.reset.resp = none

/-- Reset leaves the block legal and Running, whatever the creation-time parameters of the required
kinds (rests on R6, R31, R401, R405). -/
def Obligations.ResetIsLegalAndRunning : Prop :=
  ∀ p : Config.Params, p.wf = true →
    (State.resetWith p).Legal ∧ isIdle (State.resetWith p).osc = false

/-- The machine's reset state is legal (rests on R31, R47). -/
def Obligations.ResetStateIsLegal : Prop := State.reset.Legal

/-! ## The whole machine -/

/-- Every step, from every legal state, leaves a legal state: every register keeps to the values R31
allows it, and the increment stays the quotient of the frequency and the sample rate (rests on R31
to R42, R12 and R39). -/
def Obligations.StepKeepsStateLegal : Prop :=
  ∀ s t : State, s.Legal → step s = .next t → t.Legal

/-- Every register is written only by the commands that R31 names for it (rests on the column
"written by" of R31, and on R38, R40, R41, R42). -/
def Obligations.RegistersAreWrittenOnlyByTheirCommands : Prop :=
  ∀ s t : State, step s = .next t →
    (t.osc.freq ≠ s.osc.freq → ∃ d, issued s = some (.setFreq d)) ∧
    (t.osc.wave ≠ s.osc.wave → ∃ d, issued s = some (.setWave d)) ∧
    (t.osc.offset ≠ s.osc.offset → ∃ d, issued s = some (.setOffset d)) ∧
    (t.osc.depth ≠ s.osc.depth → ∃ d, issued s = some (.setDepth d)) ∧
    (t.osc.shape ≠ s.osc.shape → ∃ d, issued s = some (.setShape d)) ∧
    (t.osc.pw ≠ s.osc.pw → ∃ d, issued s = some (.setPw d)) ∧
    (t.osc.scoef ≠ s.osc.scoef → ∃ d, issued s = some (.setSmooth d)) ∧
    (t.osc.sr ≠ s.osc.sr → ∃ d, issued s = some (.setSr d)) ∧
    (t.osc.phase ≠ s.osc.phase → issued s = some .tick ∨ issued s = some .resetPhase) ∧
    (t.osc.pinc ≠ s.osc.pinc →
      (∃ d, issued s = some (.setFreq d)) ∨ ∃ d, issued s = some (.setSr d)) ∧
    (t.osc.held ≠ s.osc.held → issued s = some .tick) ∧
    (t.osc.smoothed ≠ s.osc.smoothed → issued s = some .tick ∧ fle s.osc.freq ZERO = false) ∧
    t.osc.idle = s.osc.idle ∧
    (t.osc.prbs ≠ s.osc.prbs → issued s = some .tick) ∧
    (t.osc.err ≠ s.osc.err → issuesIllegal s)

/-! ## Binary32 arithmetic -/

/-- The distance of the value `u` from the rational `n / d`, times `d`. -/
def Sys2Proof.Machine.distance (u n : Int) (d : Nat) : Nat := (u * d - n).natAbs

/-- `r` is the binary32 value that `n / d` units round to, to nearest, ties to even: no finite value is
nearer, and the last significand bit of `r` is zero if another value is as near; the result is
infinite exactly from half a unit in the last place above the largest finite value on; and the sign
is that of `n`. -/
def Sys2Proof.Machine.isRoundingOf (r : F32) (n : Int) (d : Nat) : Prop :=
  isNaN r = false ∧
  (isFinite r = true → ∀ c : F32, isFinite c = true →
    distance (signedUnits r) n d ≤ distance (signedUnits c) n d ∧
    (distance (signedUnits r) n d = distance (signedUnits c) n d →
      signedUnits c ≠ signedUnits r → r.getLsbD 0 = false)) ∧
  (isInf r = true ↔ 33554431 * 2 ^ 252 * d ≤ n.natAbs) ∧
  (n < 0 → signOf r = true) ∧ (0 < n → signOf r = false)

/-- Addition, subtraction, multiplication and division of finite values round the exact result once,
to nearest, ties to even (rests on R11 and on the definitions of IEEE 754, which the spec marks as
general knowledge, notes/assumptions/8.md). -/
def Obligations.OperationsRoundToNearestEven : Prop :=
  ∀ a b : F32, isFinite a = true → isFinite b = true →
    isRoundingOf (fadd a b) (signedUnits a + signedUnits b) 1 ∧
    isRoundingOf (fsub a b) (signedUnits a - signedUnits b) 1 ∧
    isRoundingOf (fmul a b) (signedUnits a * signedUnits b) (2 ^ 149) ∧
    (isZero b = false →
      isRoundingOf (fdiv a b)
        (if signOf b then -(signedUnits a * 2 ^ 149) else signedUnits a * 2 ^ 149) (unitsOf b))

/-- The operations on infinities and zeros, and the signs of zero results (rests on R11 and on the
definitions of IEEE 754, notes/assumptions/8.md). -/
def Obligations.OperationsOnInfinitiesAndZeros : Prop :=
  ∀ a b : F32, isNaN a = false → isNaN b = false →
    (isInf a = true → isInf b = true → signOf a ≠ signOf b → fadd a b = QNAN) ∧
    (isInf a = true → (isFinite b = true ∨ signOf b = signOf a) → fadd a b = a ∧ fadd b a = a) ∧
    (isFinite a = true → isFinite b = true → signedUnits a + signedUnits b = 0 →
      fadd a b = (if signOf a && signOf b then NEG_ZERO else ZERO)) ∧
    fsub a b = fadd a (ofParts (!signOf b) (magOf b)) ∧
    (isInf a = true → isZero b = true → fmul a b = QNAN ∧ fmul b a = QNAN) ∧
    (isInf a = true → isZero b = false →
      isInf (fmul a b) = true ∧ signOf (fmul a b) = (signOf a != signOf b) ∧ fmul b a = fmul a b) ∧
    (isFinite a = true → isFinite b = true → signOf (fmul a b) = (signOf a != signOf b)) ∧
    (isInf a = true → isInf b = true → fdiv a b = QNAN) ∧
    (isZero a = true → isZero b = true → fdiv a b = QNAN) ∧
    (isInf a = true → isFinite b = true →
      isInf (fdiv a b) = true ∧ signOf (fdiv a b) = (signOf a != signOf b)) ∧
    (isFinite a = true → isInf b = true →
      isZero (fdiv a b) = true ∧ signOf (fdiv a b) = (signOf a != signOf b)) ∧
    (isFinite a = true → isZero a = false → isZero b = true →
      isInf (fdiv a b) = true ∧ signOf (fdiv a b) = (signOf a != signOf b)) ∧
    (isFinite a = true → isFinite b = true → isZero b = false →
      signOf (fdiv a b) = (signOf a != signOf b))

/-- R12: every result that is a NaN is the canonical quiet NaN. -/
def Obligations.NaNResultsAreCanonical : Prop :=
  (∀ a b : F32,
    (isNaN (fadd a b) = true → fadd a b = 0x7FC00000#32) ∧
    (isNaN (fsub a b) = true → fsub a b = 0x7FC00000#32) ∧
    (isNaN (fmul a b) = true → fmul a b = 0x7FC00000#32) ∧
    (isNaN (fdiv a b) = true → fdiv a b = 0x7FC00000#32)) ∧
  (∀ x : F32, isNaN (Config.sinF32 x) = true → Config.sinF32 x = 0x7FC00000#32) ∧
  (∀ x y : F32, Config.powBase x = true → Config.powExp y = true →
    isNaN (Config.powF32 x y) = false)

/-- The comparisons order finite values as numbers, put the infinities at the ends, answer false on a
NaN, and take the two zeros as equal (rests on R13 and on the definitions of IEEE 754, which the spec
marks as general knowledge, notes/assumptions/8.md). -/
def Obligations.ComparisonsOrderValues : Prop :=
  (∀ a b : F32, isFinite a = true → isFinite b = true →
    (flt a b = true ↔ signedUnits a < signedUnits b) ∧
    (fle a b = true ↔ signedUnits a ≤ signedUnits b) ∧
    (fgt a b = true ↔ signedUnits b < signedUnits a) ∧
    (fge a b = true ↔ signedUnits b ≤ signedUnits a) ∧
    (feq a b = true ↔ signedUnits a = signedUnits b)) ∧
  (∀ a b : F32, isNaN a = true ∨ isNaN b = true →
    flt a b = false ∧ fle a b = false ∧ fgt a b = false ∧ fge a b = false ∧ feq a b = false) ∧
  (∀ a : F32, isFinite a = true →
    flt a 0x7F800000#32 = true ∧ fgt a 0xFF800000#32 = true) ∧
  flt 0xFF800000#32 0x7F800000#32 = true ∧ feq 0x7F800000#32 0x7F800000#32 = true ∧ feq 0xFF800000#32 0xFF800000#32 = true ∧
  feq 0x00000000#32 0x80000000#32 = true ∧
  (∀ a : F32,
    (isNaN a = true ↔ a.extractLsb' 23 8 = 0xFF#8 ∧ a.extractLsb' 0 23 ≠ 0#23) ∧
    (isInf a = true ↔ a.extractLsb' 23 8 = 0xFF#8 ∧ a.extractLsb' 0 23 = 0#23))

/-- R14: the clamp, for a value that is no NaN; and its use on the phase (R122), which it leaves
alone below one and maps to one from there on, `+inf` among them. -/
def Obligations.ClampfClamps : Prop :=
  (∀ x lo hi : F32, isNaN x = false → isNaN lo = false → isNaN hi = false → fle lo hi = true →
    (flt x lo = true → clampf x lo hi = lo) ∧
    (fgt x hi = true → clampf x lo hi = hi) ∧
    (fle lo x = true → fle x hi = true → clampf x lo hi = x)) ∧
  (∀ hi : F32, isNaN hi = false → fle ZERO hi = true → clampf NEG_ZERO ZERO hi = NEG_ZERO) ∧
  (∀ ph : F32,
    (fge ph ZERO = true → flt ph ONE = true → clamp01 ph = ph) ∧
    (fge ph ONE = true → clamp01 ph = ONE))
end

