-- ==== Sys2Proof/Laws/Encoding.lean ====
section
/-! SUPPORT. The fields of a word and the words of fields: each field reads back what `encodeFields`
puts there, and a word with `RES` zero is the word of its fields. -/

namespace Sys2Proof

@[simp] theorem resField_encodeFields (op : BitVec 8) (d : BitVec 32) :
    resField (encodeFields op d) = 0#24 := by
  unfold resField encodeFields
  ext i hi
  simp only [BitVec.getElem_extractLsb', BitVec.getLsbD_append]
  rw [if_neg (by omega), if_pos (by omega)]
  simp

@[simp] theorem opField_encodeFields (op : BitVec 8) (d : BitVec 32) :
    opField (encodeFields op d) = op := by
  unfold opField encodeFields
  ext i hi
  simp only [BitVec.getElem_extractLsb', BitVec.getLsbD_append]
  rw [if_neg (by omega), if_neg (by omega)]
  simp [show 56 + i - 32 - 24 = i by omega, BitVec.getLsbD_eq_getElem hi]

@[simp] theorem dataField_encodeFields (op : BitVec 8) (d : BitVec 32) :
    dataField (encodeFields op d) = d := by
  unfold dataField encodeFields
  ext i hi
  simp only [BitVec.getElem_extractLsb', BitVec.getLsbD_append]
  rw [if_pos (by omega)]
  simp [BitVec.getLsbD_eq_getElem hi]

/-- A word with `RES` zero is determined by its opcode and its operand. -/
theorem encodeFields_of_resField {w : Word} (h : resField w = 0#24) :
    encodeFields (opField w) (dataField w) = w := by
  have hb : ∀ k, k < 24 → w.getLsbD (32 + k) = false := by
    intro k hk
    have := congrArg (fun v => v.getLsbD k) h
    simpa [resField, hk] using this
  apply BitVec.eq_of_getLsbD_eq
  intro i hi
  unfold encodeFields opField dataField
  simp only [BitVec.getLsbD_append]
  split
  · rename_i h1
    simp [h1]
  · split
    · rename_i h1 h2
      have := hb (i - 32) h2
      rw [show 32 + (i - 32) = i by omega] at this
      simp [this]
    · rename_i h1 h2
      have h3 : i - 32 - 24 < 8 := by omega
      have h4 : 56 + (i - 32 - 24) = i := by omega
      rw [BitVec.getLsbD_extractLsb', h4]
      simp only [h3, decide_true, Bool.true_and]

/-- Two words with `RES` zero and the same opcode and operand are one. -/
theorem word_ext {v w : Word} (hr : resField v = 0#24) (hr' : resField w = 0#24)
    (ho : opField v = opField w) (hd : dataField v = dataField w) : v = w := by
  rw [← encodeFields_of_resField hr, ← encodeFields_of_resField hr', ho, hd]

@[simp] theorem regField_setWidth (r : RegNum) : regField (r.setWidth 32) = r := by
  apply BitVec.eq_of_toNat_eq
  have := r.isLt
  simp [regField, BitVec.extractLsb'_toNat]
  omega

@[simp] theorem regHighField_setWidth (r : RegNum) : regHighField (r.setWidth 32) = 0#28 := by
  apply BitVec.eq_of_toNat_eq
  have := r.isLt
  simp [regHighField, BitVec.extractLsb'_toNat, Nat.shiftRight_eq_div_pow]
  omega

/-- An operand with `DATA[31:4]` zero is its register number. -/
theorem setWidth_regField {d : BitVec 32} (h : regHighField d = 0#28) :
    (regField d).setWidth 32 = d := by
  have h' := congrArg BitVec.toNat h
  have := d.isLt
  simp [regHighField, BitVec.extractLsb'_toNat, Nat.shiftRight_eq_div_pow] at h'
  apply BitVec.eq_of_toNat_eq
  simp [regField, BitVec.extractLsb'_toNat]
  omega

end Sys2Proof
end

