-- ==== Sys2Proof/Laws/Float.lean ====
section
/-! SUPPORT. What binary32 arithmetic does: the fields of a pattern, the order of magnitudes, and the
one rounding `roundUnits`, which is exact on binary32 values, monotone, and nearest with ties to
even. -/

namespace Sys2Proof.Machine

/-! ## Fields -/

theorem magOf_lt (x : F32) : magOf x < 2147483648 := Nat.mod_lt _ (by decide)

theorem toNat_eq_of_sign (x : F32) :
    x.toNat = if signOf x then 2147483648 + magOf x else magOf x := by
  have := x.isLt
  unfold signOf magOf
  split <;> rename_i h <;> simp at h <;> omega

theorem expOf_eq (x : F32) : expOf x = magOf x / 8388608 := rfl
theorem fracOf_eq (x : F32) : fracOf x = magOf x % 8388608 := rfl

theorem isNaN_iff (x : F32) : isNaN x = true ↔ 0x7F800000 < magOf x := by
  have := magOf_lt x
  simp only [isNaN, expOf, fracOf, Bool.and_eq_true, beq_iff_eq, bne_iff_ne]
  omega

theorem isNaN_eq_false_iff (x : F32) : isNaN x = false ↔ magOf x ≤ 0x7F800000 := by
  rw [← Bool.not_eq_true, isNaN_iff]
  omega

theorem isInf_iff (x : F32) : isInf x = true ↔ magOf x = 0x7F800000 := by
  have := magOf_lt x
  simp only [isInf, expOf, fracOf, Bool.and_eq_true, beq_iff_eq]
  omega

theorem isInf_eq_false_iff (x : F32) : isInf x = false ↔ magOf x ≠ 0x7F800000 := by
  rw [← Bool.not_eq_true, isInf_iff]

theorem isFinite_iff (x : F32) : isFinite x = true ↔ magOf x < 0x7F800000 := by
  have := magOf_lt x
  simp only [isFinite, expOf, bne_iff_ne]
  omega

theorem isFinite_eq_false_iff (x : F32) : isFinite x = false ↔ 0x7F800000 ≤ magOf x := by
  rw [← Bool.not_eq_true, isFinite_iff]
  omega

theorem isZero_iff (x : F32) : isZero x = true ↔ magOf x = 0 := by
  simp [isZero]

theorem isNaN_of_isFinite {x : F32} (h : isFinite x = true) : isNaN x = false := by
  rw [isFinite_iff] at h
  rw [isNaN_eq_false_iff]
  omega

theorem isInf_of_isFinite {x : F32} (h : isFinite x = true) : isInf x = false := by
  rw [isFinite_iff] at h
  rw [isInf_eq_false_iff]
  omega

/-- A pattern that is no NaN and no infinity is finite. -/
theorem isFinite_of_not {x : F32} (hn : isNaN x = false) (hi : isInf x = false) :
    isFinite x = true := by
  rw [isNaN_eq_false_iff] at hn
  rw [isInf_eq_false_iff] at hi
  rw [isFinite_iff]
  omega

theorem toNat_ofParts (neg : Bool) (m : Nat) (h : m < 2147483648) :
    (ofParts neg m).toNat = if neg then 2147483648 + m else m := by
  unfold ofParts
  rw [BitVec.toNat_ofNat]
  split <;> omega

theorem signOf_ofParts (neg : Bool) (m : Nat) (h : m < 2147483648) :
    signOf (ofParts neg m) = neg := by
  unfold signOf
  rw [toNat_ofParts neg m h]
  cases neg <;> simp; omega

theorem magOf_ofParts (neg : Bool) (m : Nat) (h : m < 2147483648) : magOf (ofParts neg m) = m := by
  unfold magOf
  rw [toNat_ofParts neg m h]
  cases neg <;> simp <;> omega

theorem ofParts_sign_mag (x : F32) : ofParts (signOf x) (magOf x) = x := by
  apply BitVec.eq_of_toNat_eq
  rw [toNat_ofParts _ _ (magOf_lt x), toNat_eq_of_sign x]

/-- A pattern is its sign and its magnitude. -/
theorem ext_sign_mag {x y : F32} (hs : signOf x = signOf y) (hm : magOf x = magOf y) : x = y := by
  rw [← ofParts_sign_mag x, ← ofParts_sign_mag y, hs, hm]

theorem signOf_fneg (x : F32) : signOf (fneg x) = !signOf x := signOf_ofParts _ _ (magOf_lt x)
theorem magOf_fneg (x : F32) : magOf (fneg x) = magOf x := magOf_ofParts _ _ (magOf_lt x)

/-! ## Magnitudes in units -/

/-- The units of a magnitude, whichever the sign. -/
def magUnits (m : Nat) : Nat :=
  if m / 8388608 = 0 then m % 8388608 else (8388608 + m % 8388608) * 2 ^ (m / 8388608 - 1)

theorem unitsOf_eq (x : F32) : unitsOf x = magUnits (magOf x) := rfl

/-- Magnitudes below 2^24 are their own units. -/
theorem magUnits_small {m : Nat} (h : m < 16777216) : magUnits m = m := by
  unfold magUnits
  split
  · omega
  · have h1 : m / 8388608 = 1 := by omega
    rw [h1]
    simp
    omega

/-- In the binade of exponent `k + 1`, the significand counts 2^k units. The upper end of a binade is
the lower end of the next. -/
theorem magUnits_binade (k t : Nat) (hlo : k = 0 ∨ 8388608 ≤ t) (hhi : t ≤ 16777216) :
    magUnits (k * 8388608 + t) = t * 2 ^ k := by
  rcases Nat.lt_or_ge t 16777216 with h | h
  · by_cases hk : k = 0
    · subst hk
      rw [Nat.zero_mul, Nat.zero_add, magUnits_small h]
      simp
    · have h2 : 8388608 ≤ t := by omega
      have hd : (k * 8388608 + t) / 8388608 = k + 1 := by omega
      have hm : (k * 8388608 + t) % 8388608 = t - 8388608 := by omega
      unfold magUnits
      rw [hd, hm, if_neg (by omega), show 8388608 + (t - 8388608) = t by omega,
        Nat.add_sub_cancel]
  · have ht : t = 16777216 := by omega
    subst ht
    have hd : (k * 8388608 + 16777216) / 8388608 = k + 2 := by omega
    have hm : (k * 8388608 + 16777216) % 8388608 = 0 := by omega
    unfold magUnits
    rw [hd, hm, if_neg (by omega)]
    have : k + 2 - 1 = k + 1 := by omega
    rw [this, pow_succ]
    ring

theorem magUnits_succ_lt (m : Nat) : magUnits m < magUnits (m + 1) := by
  rcases Nat.lt_or_ge m 8388608 with h | h
  · rw [magUnits_small (by omega), magUnits_small (by omega)]
    omega
  · obtain ⟨k, t, hm, h1, h2⟩ : ∃ k t, m = k * 8388608 + t ∧ 8388608 ≤ t ∧ t < 16777216 :=
      ⟨m / 8388608 - 1, m % 8388608 + 8388608, by omega, by omega, by omega⟩
    subst hm
    rw [magUnits_binade k t (Or.inr h1) (by omega), Nat.add_assoc,
      magUnits_binade k (t + 1) (Or.inr (by omega)) (by omega)]
    have : 0 < 2 ^ k := Nat.two_pow_pos k
    rw [Nat.add_mul]
    omega

theorem magUnits_strictMono : StrictMono magUnits := strictMono_nat_of_lt_succ magUnits_succ_lt

theorem magUnits_le_iff {m n : Nat} : magUnits m ≤ magUnits n ↔ m ≤ n :=
  magUnits_strictMono.le_iff_le

theorem magUnits_lt_iff {m n : Nat} : magUnits m < magUnits n ↔ m < n :=
  magUnits_strictMono.lt_iff_lt

theorem magUnits_inj {m n : Nat} : magUnits m = magUnits n ↔ m = n :=
  magUnits_strictMono.injective.eq_iff

theorem magUnits_zero : magUnits 0 = 0 := rfl

theorem magUnits_eq_zero {m : Nat} : magUnits m = 0 ↔ m = 0 := by
  have := @magUnits_inj m 0
  rwa [magUnits_zero] at this

theorem magUnits_pos {m : Nat} : 0 < magUnits m ↔ 0 < m := by
  have := @magUnits_lt_iff 0 m
  rwa [magUnits_zero] at this

/-! ## Rounding to a whole number -/

/-- The two sides of `roundDiv`: it is within half of `n / d`, and even when a half away. -/
theorem roundDiv_spec (n d : Nat) (hd : 0 < d) :
    2 * n ≤ (2 * roundDiv n d + 1) * d ∧ 2 * roundDiv n d * d ≤ 2 * n + d ∧
    (2 * n = (2 * roundDiv n d + 1) * d → roundDiv n d % 2 = 0) ∧
    (2 * roundDiv n d * d = 2 * n + d → roundDiv n d % 2 = 0) := by
  have hn := Nat.div_add_mod n d
  have hr := Nat.mod_lt n hd
  generalize hq : n / d = q at *
  generalize hm : n % d = r at *
  have hR : roundDiv n d = if d < 2 * r ∨ (2 * r = d ∧ q % 2 = 1) then q + 1 else q := by
    unfold roundDiv
    rw [hq, hm]
  rw [hR]
  have e1 : (2 * (q + 1) + 1) * d = 2 * (d * q) + 3 * d := by ring
  have e2 : 2 * (q + 1) * d = 2 * (d * q) + 2 * d := by ring
  have e3 : (2 * q + 1) * d = 2 * (d * q) + d := by ring
  have e4 : 2 * q * d = 2 * (d * q) := by ring
  split <;> rename_i h
  · rw [e1, e2]
    refine ⟨by omega, by omega, by omega, by omega⟩
  · rw [e3, e4]
    refine ⟨by omega, by omega, by omega, by omega⟩

/-- A whole quotient is not rounded. -/
theorem roundDiv_mul (q d : Nat) (hd : 0 < d) : roundDiv (q * d) d = q := by
  unfold roundDiv
  rw [Nat.mul_mod_left, Nat.mul_div_cancel _ hd]
  split <;> omega

theorem roundDiv_mono {n d n' d' : Nat} (hd : 0 < d) (hd' : 0 < d') (h : n * d' ≤ n' * d) :
    roundDiv n d ≤ roundDiv n' d' := by
  by_contra hlt
  rw [Nat.not_le] at hlt
  obtain ⟨-, h2, -, h4⟩ := roundDiv_spec n d hd
  obtain ⟨h1', -, h3', -⟩ := roundDiv_spec n' d' hd'
  generalize roundDiv n d = R at *
  generalize roundDiv n' d' = R' at *
  obtain ⟨j, rfl⟩ : ∃ j, R = R' + 1 + j := ⟨R - (R' + 1), by omega⟩
  have hp : 0 < d * d' := Nat.mul_pos hd hd'
  have a1 : 2 * (R' + 1 + j) * d * d' ≤ (2 * n + d) * d' := Nat.mul_le_mul_right _ h2
  have a2 : 2 * n' * d ≤ (2 * R' + 1) * d' * d := Nat.mul_le_mul_right _ h1'
  have b1 : 2 * (R' + 1 + j) * d * d' = 2 * (R' * (d * d')) + 2 * (d * d') + 2 * (j * (d * d')) := by
    ring
  have b2 : (2 * n + d) * d' = 2 * (n * d') + d * d' := by ring
  have b3 : 2 * n' * d = 2 * (n' * d) := by ring
  have b4 : (2 * R' + 1) * d' * d = 2 * (R' * (d * d')) + d * d' := by ring
  have hj : j * (d * d') = 0 := by omega
  have hj0 : j = 0 := by
    rcases Nat.mul_eq_zero.mp hj with h0 | h0
    · exact h0
    · omega
  subst hj0
  have c1 : 2 * (R' + 1 + 0) * d * d' = (2 * n + d) * d' := by omega
  have c2 : 2 * n' * d = (2 * R' + 1) * d' * d := by omega
  have e1 := h4 (Nat.eq_of_mul_eq_mul_right hd' c1)
  have e2 := h3' (Nat.eq_of_mul_eq_mul_right hd c2)
  omega

/-! ## Rounding to binary32 -/

/-- The number of low bits that the significand of `n / d` drops. -/
def dropBits (n d : Nat) : Nat := Nat.log2 (n / d) - 23

theorem roundUnits_eq (n d : Nat) :
    roundUnits n d =
      min (dropBits n d * 8388608 + roundDiv n (d * 2 ^ dropBits n d)) 0x7F800000 := rfl

theorem roundUnits_le (n d : Nat) : roundUnits n d ≤ 0x7F800000 := by
  rw [roundUnits_eq]
  exact Nat.min_le_right _ _

theorem roundUnits_lt_sign (n d : Nat) : roundUnits n d < 2147483648 :=
  lt_of_le_of_lt (roundUnits_le n d) (by decide)

/-- The quotient lies in the binade that `dropBits` names. -/
theorem dropBits_spec (n d : Nat) (hd : 0 < d) :
    n < 16777216 * (d * 2 ^ dropBits n d) ∧
    (dropBits n d = 0 ∨ 8388608 * (d * 2 ^ dropBits n d) ≤ n) := by
  have hlt : n / d < 2 ^ (Nat.log2 (n / d) + 1) := Nat.lt_log2_self
  have hq : n < (n / d + 1) * d := by
    have := Nat.div_add_mod n d
    have := Nat.mod_lt n hd
    have e : (n / d + 1) * d = d * (n / d) + d := by ring
    omega
  have hq' : d * (n / d) ≤ n := Nat.mul_div_le n d
  unfold dropBits
  generalize hL : Nat.log2 (n / d) = L at *
  constructor
  · have hp : 2 ^ (L + 1) ≤ 16777216 * 2 ^ (L - 23) := by
      rw [show (16777216 : Nat) = 2 ^ 24 from rfl, ← pow_add]
      exact Nat.pow_le_pow_right (by decide) (by omega)
    calc n < (n / d + 1) * d := hq
      _ ≤ (16777216 * 2 ^ (L - 23)) * d := Nat.mul_le_mul_right _ (by omega)
      _ = 16777216 * (d * 2 ^ (L - 23)) := by ring
  · rcases Nat.lt_or_ge L 24 with h | h
    · exact Or.inl (by omega)
    · right
      have hne : n / d ≠ 0 := by
        rintro h0
        rw [h0] at hL
        have : Nat.log2 0 = 0 := by decide
        omega
      have hge : 2 ^ L ≤ n / d := by
        rw [← hL]
        exact Nat.log2_self_le hne
      have hp : 8388608 * 2 ^ (L - 23) = 2 ^ L := by
        rw [show (8388608 : Nat) = 2 ^ 23 from rfl, ← pow_add]
        congr 1
        omega
      calc 8388608 * (d * 2 ^ (L - 23)) = d * (8388608 * 2 ^ (L - 23)) := by ring
        _ = d * 2 ^ L := by rw [hp]
        _ ≤ d * (n / d) := Nat.mul_le_mul_left _ hge
        _ ≤ n := hq'

/-- The significand after rounding, and the place of the magnitude it gives: within the binade, the
upper end included. -/
theorem roundDiv_dropBits (n d : Nat) (hd : 0 < d) :
    roundDiv n (d * 2 ^ dropBits n d) ≤ 16777216 ∧
    (dropBits n d = 0 ∨ 8388608 ≤ roundDiv n (d * 2 ^ dropBits n d)) := by
  obtain ⟨h1, h2⟩ := dropBits_spec n d hd
  generalize dropBits n d = k at *
  have hp : 0 < d * 2 ^ k := Nat.mul_pos hd (Nat.two_pow_pos k)
  constructor
  · have := roundDiv_mono (n := n) (n' := 16777216 * (d * 2 ^ k)) hp hp
      (Nat.mul_le_mul_right _ (by omega))
    rwa [roundDiv_mul _ _ hp] at this
  · rcases h2 with h2 | h2
    · exact Or.inl h2
    · right
      have := roundDiv_mono (n := 8388608 * (d * 2 ^ k)) (n' := n) hp hp
        (Nat.mul_le_mul_right _ h2)
      rwa [roundDiv_mul _ _ hp] at this

/-- The units of the rounded magnitude, before it is cut at infinity. -/
theorem magUnits_rounded (n d : Nat) (hd : 0 < d) :
    magUnits (dropBits n d * 8388608 + roundDiv n (d * 2 ^ dropBits n d)) =
      roundDiv n (d * 2 ^ dropBits n d) * 2 ^ dropBits n d := by
  obtain ⟨h1, h2⟩ := roundDiv_dropBits n d hd
  exact magUnits_binade _ _ h2 h1

theorem dropBits_mono {n d n' d' : Nat} (hd : 0 < d) (hd' : 0 < d') (h : n * d' ≤ n' * d) :
    dropBits n d ≤ dropBits n' d' := by
  have hdiv : n / d ≤ n' / d' := by
    rw [Nat.le_div_iff_mul_le hd']
    have h1 : n / d * d' * d ≤ n' * d := by
      calc n / d * d' * d = d * (n / d) * d' := by ring
        _ ≤ n * d' := Nat.mul_le_mul_right _ (Nat.mul_div_le n d)
        _ ≤ n' * d := h
    exact Nat.le_of_mul_le_mul_right h1 hd
  unfold dropBits
  have : Nat.log2 (n / d) ≤ Nat.log2 (n' / d') := by
    rw [Nat.log2_eq_log_two, Nat.log2_eq_log_two]
    exact Nat.log_mono_right hdiv
  omega

/-- Rounding is monotone. -/
theorem roundUnits_mono {n d n' d' : Nat} (hd : 0 < d) (hd' : 0 < d') (h : n * d' ≤ n' * d) :
    roundUnits n d ≤ roundUnits n' d' := by
  rw [roundUnits_eq, roundUnits_eq]
  apply min_le_min_right
  obtain ⟨h1, -⟩ := roundDiv_dropBits n d hd
  obtain ⟨-, h2⟩ := roundDiv_dropBits n' d' hd'
  rcases Nat.eq_or_lt_of_le (dropBits_mono hd hd' h) with hk | hk
  · rw [hk]
    rw [hk] at h1
    have hp : 0 < 2 ^ dropBits n' d' := Nat.two_pow_pos _
    have := roundDiv_mono (n := n) (d := d * 2 ^ dropBits n' d') (n' := n')
      (d' := d' * 2 ^ dropBits n' d') (Nat.mul_pos hd hp) (Nat.mul_pos hd' hp) (by
        calc n * (d' * 2 ^ dropBits n' d') = n * d' * 2 ^ dropBits n' d' := by ring
          _ ≤ n' * d * 2 ^ dropBits n' d' := Nat.mul_le_mul_right _ h
          _ = n' * (d * 2 ^ dropBits n' d') := by ring)
    omega
  · have : 8388608 ≤ roundDiv n' (d' * 2 ^ dropBits n' d') := by
      rcases h2 with h2 | h2
      · omega
      · exact h2
    have h3 : (dropBits n d + 1) * 8388608 ≤ dropBits n' d' * 8388608 :=
      Nat.mul_le_mul_right _ hk
    omega

/-- Rounding a binary32 value gives that value. -/
theorem roundUnits_magUnits (m d : Nat) (hd : 0 < d) (hm : m ≤ 0x7F800000) :
    roundUnits (magUnits m * d) d = m := by
  have key : dropBits (magUnits m * d) d * 8388608 +
      roundDiv (magUnits m * d) (d * 2 ^ dropBits (magUnits m * d) d) = m := by
    have hk : dropBits (magUnits m * d) d = Nat.log2 (magUnits m) - 23 := by
      unfold dropBits
      rw [Nat.mul_div_cancel _ hd]
    rw [hk]
    obtain ⟨k, t, rfl, h1, h2⟩ : ∃ k t, m = k * 8388608 + t ∧ (k = 0 ∨ 8388608 ≤ t) ∧
        t < 16777216 := by
      rcases Nat.lt_or_ge m 16777216 with h | h
      · exact ⟨0, m, by omega, Or.inl rfl, h⟩
      · exact ⟨m / 8388608 - 1, m % 8388608 + 8388608, by omega, by omega, by omega⟩
    rw [magUnits_binade k t h1 (by omega)]
    have hlog : Nat.log2 (t * 2 ^ k) - 23 = k := by
      by_cases ht : t = 0
      · subst ht
        have : k = 0 := by omega
        subst this
        decide
      · have hne : t * 2 ^ k ≠ 0 := Nat.mul_ne_zero ht (Nat.pos_iff_ne_zero.mp (Nat.two_pow_pos k))
        have hup : Nat.log2 (t * 2 ^ k) < k + 24 := by
          rw [Nat.log2_lt hne, pow_add, Nat.mul_comm]
          exact Nat.mul_lt_mul_of_pos_left (by omega) (Nat.two_pow_pos k)
        rcases h1 with h1 | h1
        · omega
        · have hlo : k + 23 ≤ Nat.log2 (t * 2 ^ k) := by
            rw [Nat.le_log2 hne, pow_add, Nat.mul_comm]
            exact Nat.mul_le_mul_right _ (by omega)
          omega
    rw [hlog]
    have hpos : 0 < d * 2 ^ k := Nat.mul_pos hd (Nat.two_pow_pos k)
    have e : t * 2 ^ k * d = t * (d * 2 ^ k) := by ring
    rw [e, roundDiv_mul _ _ hpos]
  rw [roundUnits_eq, key]
  exact Nat.min_eq_left hm

/-- A value at least a binary32 value rounds to at least it. -/
theorem le_roundUnits {m n d : Nat} (hd : 0 < d) (hm : m ≤ 0x7F800000) (h : magUnits m * d ≤ n) :
    m ≤ roundUnits n d := by
  rw [← roundUnits_magUnits m d hd hm]
  exact roundUnits_mono hd hd (Nat.mul_le_mul_right _ h)

/-- A value at most a binary32 value rounds to at most it. -/
theorem roundUnits_le_of_le {m n d : Nat} (hd : 0 < d) (hm : m ≤ 0x7F800000)
    (h : n ≤ magUnits m * d) : roundUnits n d ≤ m := by
  rw [← roundUnits_magUnits m d hd hm]
  exact roundUnits_mono hd hd (Nat.mul_le_mul_right _ h)

theorem roundUnits_zero (d : Nat) (hd : 0 < d) : roundUnits 0 d = 0 := by
  have := roundUnits_magUnits 0 d hd (by decide)
  rwa [magUnits_zero, Nat.zero_mul] at this

/-- A whole number of units rounds to zero only if it is zero. -/
theorem roundUnits_pos {n : Nat} (h : 0 < n) : 0 < roundUnits n 1 :=
  le_roundUnits (m := 1) (by decide) (by decide) (by
    rw [magUnits_small (by decide)]
    omega)

/-! ## Rounding is nearest -/

/-- The distance of a value from `n / d` units, in `d`-ths of a unit. -/
def roundError (u n d : Nat) : Nat := ((u * d : Int) - (n : Int)).natAbs

/-- The rounded significand is nearer `n / d` than any other whole number of its last place, and even
when another is as near. -/
theorem roundDiv_nearest (n d t : Nat) (hd : 0 < d) :
    roundError (roundDiv n d) n d ≤ roundError t n d ∧
    (roundError (roundDiv n d) n d = roundError t n d → t ≠ roundDiv n d →
      roundDiv n d % 2 = 0) := by
  obtain ⟨h1, h2, h3, h4⟩ := roundDiv_spec n d hd
  generalize roundDiv n d = R at *
  unfold roundError
  have e1 : (2 * R + 1) * d = 2 * (R * d) + d := by ring
  have e2 : 2 * R * d = 2 * (R * d) := by ring
  rw [e1] at h1 h3
  rw [e2] at h2 h4
  rcases Nat.lt_trichotomy t R with h | h | h
  · obtain ⟨j, rfl⟩ : ∃ j, R = t + 1 + j := ⟨R - (t + 1), by omega⟩
    have e3 : (t + 1 + j) * d = t * d + d + j * d := by ring
    rw [e3] at h1 h2 h3 h4
    push_cast
    have e4 : ((t : Int) + 1 + j) * d = t * d + d + j * d := by ring
    rw [e4]
    generalize hA : t * d = A at *
    generalize hB : j * d = B at *
    have hA' : (t : Int) * d = (A : Int) := by rw [← hA]; push_cast; ring
    have hB' : (j : Int) * d = (B : Int) := by rw [← hB]; push_cast; ring
    rw [hA', hB']
    refine ⟨by omega, fun he hne => h4 (by omega)⟩
  · subst h
    exact ⟨le_refl _, fun _ hne => absurd rfl hne⟩
  · obtain ⟨j, rfl⟩ : ∃ j, t = R + 1 + j := ⟨t - (R + 1), by omega⟩
    push_cast
    have e4 : ((R : Int) + 1 + j) * d = R * d + d + j * d := by ring
    rw [e4]
    generalize hA : R * d = A at *
    generalize hB : j * d = B at *
    have hA' : (R : Int) * d = (A : Int) := by rw [← hA]; push_cast; ring
    have hB' : (j : Int) * d = (B : Int) := by rw [← hB]; push_cast; ring
    rw [hA', hB']
    refine ⟨by omega, fun he hne => h3 (by omega)⟩

theorem roundError_scale (t n d k : Nat) : roundError (t * 2 ^ k) n d = roundError t n (d * 2 ^ k) := by
  unfold roundError
  push_cast
  ring_nf

/-- A value further from `n / d` on the same side has a greater error. -/
theorem roundError_lt_of_lt_of_le {u v n d : Nat} (hd : 0 < d) (huv : u < v) (h : v * d ≤ n) :
    roundError v n d < roundError u n d := by
  unfold roundError
  have h1 : (u : Int) * d < v * d := by exact_mod_cast Nat.mul_lt_mul_of_pos_right huv hd
  have h2 : (v : Int) * d ≤ n := by exact_mod_cast h
  generalize (u : Int) * d = A at *
  generalize (v : Int) * d = B at *
  omega

theorem roundError_lt_of_ge_of_lt {u v n d : Nat} (hd : 0 < d) (huv : v < u) (h : n ≤ v * d) :
    roundError v n d < roundError u n d := by
  unfold roundError
  have h1 : (v : Int) * d < u * d := by exact_mod_cast Nat.mul_lt_mul_of_pos_right huv hd
  have h2 : (n : Int) ≤ v * d := by exact_mod_cast h
  generalize (u : Int) * d = A at *
  generalize (v : Int) * d = B at *
  omega

theorem roundUnits_uncut {n d : Nat} (hR : roundUnits n d < 0x7F800000) :
    roundUnits n d = dropBits n d * 8388608 + roundDiv n (d * 2 ^ dropBits n d) := by
  rw [roundUnits_eq] at hR ⊢
  omega

/-- No magnitude is nearer `n / d` than the one it rounds to, and that one is even when another is as
near: rounding to nearest, ties to even. -/
theorem roundUnits_nearest (n d c : Nat) (hd : 0 < d) (hR : roundUnits n d < 0x7F800000) :
    roundError (magUnits (roundUnits n d)) n d ≤ roundError (magUnits c) n d ∧
    (roundError (magUnits (roundUnits n d)) n d = roundError (magUnits c) n d →
      c ≠ roundUnits n d → roundUnits n d % 2 = 0) := by
  rw [roundUnits_uncut hR, magUnits_rounded n d hd, roundError_scale]
  obtain ⟨h1, h2⟩ := dropBits_spec n d hd
  obtain ⟨h3, h4⟩ := roundDiv_dropBits n d hd
  generalize dropBits n d = k at *
  have hp : 0 < d * 2 ^ k := Nat.mul_pos hd (Nat.two_pow_pos k)
  by_cases hlow : k ≠ 0 ∧ c < k * 8388608 + 8388608
  · have h2' : 8388608 * (d * 2 ^ k) ≤ n := h2.resolve_left hlow.1
    have hc : magUnits c < 8388608 * 2 ^ k := by
      rw [← magUnits_binade k 8388608 (Or.inr (le_refl _)) (by omega), magUnits_lt_iff]
      exact hlow.2
    have hlt : roundError (8388608 * 2 ^ k) n d < roundError (magUnits c) n d :=
      roundError_lt_of_lt_of_le hd hc (by
        calc 8388608 * 2 ^ k * d = 8388608 * (d * 2 ^ k) := by ring
          _ ≤ n := h2')
    rw [roundError_scale] at hlt
    have := (roundDiv_nearest n (d * 2 ^ k) 8388608 hp).1
    exact ⟨by omega, fun he _ => by omega⟩
  · by_cases hhigh : k * 8388608 + 16777216 < c
    · have hc : 16777216 * 2 ^ k < magUnits c := by
        rw [← magUnits_binade k 16777216 (Or.inr (by omega)) (by omega), magUnits_lt_iff]
        exact hhigh
      have hlt : roundError (16777216 * 2 ^ k) n d < roundError (magUnits c) n d :=
        roundError_lt_of_ge_of_lt hd hc (by
          calc n ≤ 16777216 * (d * 2 ^ k) := by omega
            _ = 16777216 * 2 ^ k * d := by ring)
      rw [roundError_scale] at hlt
      have := (roundDiv_nearest n (d * 2 ^ k) 16777216 hp).1
      exact ⟨by omega, fun he _ => by omega⟩
    · obtain ⟨t, rfl, ht1, ht2⟩ : ∃ t, c = k * 8388608 + t ∧ (k = 0 ∨ 8388608 ≤ t) ∧
          t ≤ 16777216 := ⟨c - k * 8388608, by omega, by omega, by omega⟩
      rw [magUnits_binade k t ht1 ht2, roundError_scale]
      obtain ⟨h5, h6⟩ := roundDiv_nearest n (d * 2 ^ k) t hp
      refine ⟨h5, fun he hne => ?_⟩
      have := h6 he (by omega)
      omega

/-- The overflow threshold of rounding to nearest: half a unit in the last place above the largest
finite value. -/
theorem roundUnits_overflow (n d : Nat) (hd : 0 < d) :
    roundUnits n d = 0x7F800000 ↔ 33554431 * 2 ^ 252 * d ≤ n := by
  constructor
  · intro h
    by_contra hlt
    rw [Nat.not_le] at hlt
    rw [roundUnits_eq] at h
    obtain ⟨h1, h2⟩ := dropBits_spec n d hd
    obtain ⟨h3, -⟩ := roundDiv_dropBits n d hd
    obtain ⟨-, h5, -, -⟩ := roundDiv_spec n (d * 2 ^ dropBits n d)
      (Nat.mul_pos hd (Nat.two_pow_pos _))
    generalize dropBits n d = k at *
    obtain ⟨t, hT⟩ : ∃ t, roundDiv n (d * 2 ^ k) = t := ⟨_, rfl⟩
    rw [hT] at h h3 h5
    clear hT
    have hk : 253 ≤ k := by omega
    obtain ⟨j, rfl⟩ : ∃ j, k = 253 + j := ⟨k - 253, by omega⟩
    have hj0 : 0 < 2 ^ j := Nat.two_pow_pos j
    have hA : 0 < d * 2 ^ 252 := Nat.mul_pos hd (Nat.two_pow_pos _)
    have e0 : d * 2 ^ (253 + j) = 2 * (d * 2 ^ 252 * 2 ^ j) := by
      rw [pow_add, pow_succ]
      ring
    have e1 : 33554431 * 2 ^ 252 * d = 33554431 * (d * 2 ^ 252) := by ring
    rw [e0] at h2 h5
    rw [e1] at hlt
    clear e0 e1
    obtain ⟨A, hAd⟩ : ∃ A, d * 2 ^ 252 = A := ⟨_, rfl⟩
    rw [hAd] at hA hlt h2 h5
    have hAj : A ≤ A * 2 ^ j := Nat.le_mul_of_pos_right _ hj0
    rcases Nat.eq_zero_or_pos j with hj | hj
    · subst hj
      simp only [pow_zero, Nat.mul_one] at h5
      have ht : 16777216 ≤ t := by omega
      have := Nat.mul_le_mul_right (2 * A) (Nat.mul_le_mul_left 2 ht)
      omega
    · have h2j : 2 ≤ 2 ^ j := by
        calc 2 = 2 ^ 1 := rfl
          _ ≤ 2 ^ j := Nat.pow_le_pow_right (by decide) hj
      have hA2 : A * 2 ≤ A * 2 ^ j := Nat.mul_le_mul_left _ h2j
      omega
  · intro h
    apply Nat.le_antisymm (roundUnits_le n d)
    have hd1 : roundUnits (33554431 * 2 ^ 252) 1 = 0x7F800000 := by decide
    have hm := roundUnits_mono (n := 33554431 * 2 ^ 252) (d := 1) (n' := n) Nat.one_pos hd
      (by rw [Nat.mul_one]; exact h)
    rwa [hd1] at hm

end Sys2Proof.Machine
end

