-- ==== Sys2Proof/Laws/FloatOps.lean ====
section
/-! SUPPORT. What the binary32 operations and comparisons answer: one lemma per case of each
operation, canonical NaNs, and bounds of a rounded result by binary32 values. -/

namespace Sys2Proof.Machine

/-! ## Signed units -/

theorem signedUnits_eq (x : F32) :
    signedUnits x = if signOf x then -(magUnits (magOf x) : Int) else (magUnits (magOf x) : Int) := rfl

theorem natAbs_signedUnits (x : F32) : (signedUnits x).natAbs = magUnits (magOf x) := by
  rw [signedUnits_eq]
  split <;> omega

theorem signedUnits_ofParts (neg : Bool) (m : Nat) (h : m < 2147483648) :
    signedUnits (ofParts neg m) = if neg then -(magUnits m : Int) else (magUnits m : Int) := by
  rw [signedUnits_eq, signOf_ofParts neg m h, magOf_ofParts neg m h]

theorem signedUnits_fneg (x : F32) : signedUnits (fneg x) = -signedUnits x := by
  rw [signedUnits_eq, signedUnits_eq, signOf_fneg, magOf_fneg]
  cases signOf x <;> simp

theorem signedUnits_eq_zero (x : F32) : signedUnits x = 0 ↔ magOf x = 0 := by
  rw [signedUnits_eq, ← magUnits_eq_zero]
  split <;> omega

theorem signedUnits_nonneg {x : F32} (h : signOf x = false) : 0 ≤ signedUnits x := by
  simp [signedUnits_eq, h]

theorem isNaN_fneg (x : F32) : isNaN (fneg x) = isNaN x := by
  simp only [isNaN, expOf, fracOf, magOf_fneg]

theorem isInf_fneg (x : F32) : isInf (fneg x) = isInf x := by
  simp only [isInf, expOf, fracOf, magOf_fneg]

theorem isFinite_fneg (x : F32) : isFinite (fneg x) = isFinite x := by
  simp only [isFinite, expOf, magOf_fneg]

theorem isNaN_QNAN : isNaN QNAN = true := by decide

theorem isNaN_ofParts {neg : Bool} {m : Nat} (h : m ≤ 0x7F800000) : isNaN (ofParts neg m) = false := by
  rw [isNaN_eq_false_iff, magOf_ofParts neg m (by omega)]
  exact h

theorem isNaN_ofParts_roundUnits (neg : Bool) (n d : Nat) :
    isNaN (ofParts neg (roundUnits n d)) = false := isNaN_ofParts (roundUnits_le n d)

/-! ## Comparisons (R13) -/

theorem flt_iff {a b : F32} : flt a b = true ↔ isNaN a = false ∧ isNaN b = false ∧ orderKey a < orderKey b := by
  simp [flt, and_assoc]

theorem fle_iff {a b : F32} : fle a b = true ↔ isNaN a = false ∧ isNaN b = false ∧ orderKey a ≤ orderKey b := by
  simp [fle, and_assoc]

theorem feq_iff {a b : F32} : feq a b = true ↔ isNaN a = false ∧ isNaN b = false ∧ orderKey a = orderKey b := by
  simp [feq, and_assoc]

theorem fgt_iff {a b : F32} : fgt a b = true ↔ isNaN b = false ∧ isNaN a = false ∧ orderKey b < orderKey a := flt_iff
theorem fge_iff {a b : F32} : fge a b = true ↔ isNaN b = false ∧ isNaN a = false ∧ orderKey b ≤ orderKey a := fle_iff

theorem orderKey_ofParts (neg : Bool) (m : Nat) (h : m < 2147483648) :
    orderKey (ofParts neg m) = if neg then -(m : Int) else (m : Int) := by
  unfold orderKey
  rw [signOf_ofParts neg m h, magOf_ofParts neg m h]

theorem orderKey_nonneg {x : F32} (h : signOf x = false) : orderKey x = (magOf x : Int) := by
  simp [orderKey, h]

/-- The order of patterns is the order of values. -/
theorem orderKey_le_iff (a b : F32) : orderKey a ≤ orderKey b ↔ signedUnits a ≤ signedUnits b := by
  have h1 := @magUnits_le_iff (magOf a) (magOf b)
  have h2 := @magUnits_le_iff (magOf b) (magOf a)
  have h3 := @magUnits_eq_zero (magOf a)
  have h4 := @magUnits_eq_zero (magOf b)
  rw [signedUnits_eq, signedUnits_eq]
  unfold orderKey
  cases signOf a <;> cases signOf b <;> simp <;> omega

theorem orderKey_lt_iff (a b : F32) : orderKey a < orderKey b ↔ signedUnits a < signedUnits b := by
  rw [← Int.not_le, ← Int.not_le, orderKey_le_iff]

theorem orderKey_eq_iff (a b : F32) : orderKey a = orderKey b ↔ signedUnits a = signedUnits b := by
  have h1 := orderKey_le_iff a b
  have h2 := orderKey_le_iff b a
  omega

theorem fle_trans {a b c : F32} (h1 : fle a b = true) (h2 : fle b c = true) : fle a c = true := by
  rw [fle_iff] at *
  exact ⟨h1.1, h2.2.1, by omega⟩

theorem not_flt_iff {a b : F32} (ha : isNaN a = false) (hb : isNaN b = false) :
    flt a b = false ↔ fle b a = true := by
  rw [← Bool.not_eq_true, flt_iff, fle_iff]
  simp [ha, hb]

theorem not_fle_iff {a b : F32} (ha : isNaN a = false) (hb : isNaN b = false) :
    fle a b = false ↔ flt b a = true := by
  rw [← Bool.not_eq_true, fle_iff, flt_iff]
  simp [ha, hb]

/-! ## Addition -/

theorem fadd_of_nan {a b : F32} (h : isNaN a = true ∨ isNaN b = true) : fadd a b = QNAN := by
  unfold fadd
  rcases h with h | h <;> simp [h]

theorem fadd_finite_zero {a b : F32} (ha : isFinite a = true) (hb : isFinite b = true)
    (h : signedUnits a + signedUnits b = 0) :
    fadd a b = ofParts (signOf a && signOf b) 0 := by
  unfold fadd
  simp [isNaN_of_isFinite ha, isNaN_of_isFinite hb, isInf_of_isFinite ha, isInf_of_isFinite hb, h]

theorem fadd_finite {a b : F32} (ha : isFinite a = true) (hb : isFinite b = true)
    (h : signedUnits a + signedUnits b ≠ 0) :
    fadd a b = ofParts (decide (signedUnits a + signedUnits b < 0))
      (roundUnits (signedUnits a + signedUnits b).natAbs 1) := by
  unfold fadd
  simp [isNaN_of_isFinite ha, isNaN_of_isFinite hb, isInf_of_isFinite ha, isInf_of_isFinite hb, h]

/-- Whatever the sum of two finite values, the magnitude is the rounded one. -/
theorem magOf_fadd {a b : F32} (ha : isFinite a = true) (hb : isFinite b = true) :
    magOf (fadd a b) = roundUnits (signedUnits a + signedUnits b).natAbs 1 := by
  by_cases h : signedUnits a + signedUnits b = 0
  · rw [fadd_finite_zero ha hb h, magOf_ofParts _ _ (by decide), h]
    exact (roundUnits_zero 1 (by decide)).symm
  · rw [fadd_finite ha hb h, magOf_ofParts _ _ (roundUnits_lt_sign _ _)]

theorem isNaN_fadd_finite {a b : F32} (ha : isFinite a = true) (hb : isFinite b = true) :
    isNaN (fadd a b) = false := by
  rw [isNaN_eq_false_iff, magOf_fadd ha hb]
  exact roundUnits_le _ _

/-- The order key of a sum of finite values. -/
theorem orderKey_fadd {a b : F32} (ha : isFinite a = true) (hb : isFinite b = true) :
    orderKey (fadd a b) =
      if signedUnits a + signedUnits b < 0
      then -(roundUnits (signedUnits a + signedUnits b).natAbs 1 : Int)
      else (roundUnits (signedUnits a + signedUnits b).natAbs 1 : Int) := by
  by_cases h : signedUnits a + signedUnits b = 0
  · rw [fadd_finite_zero ha hb h, orderKey_ofParts _ _ (by decide), h]
    rw [show (0 : Int).natAbs = 0 from rfl, roundUnits_zero 1 (by decide)]
    cases (signOf a && signOf b) <;> simp
  · rw [fadd_finite ha hb h, orderKey_ofParts _ _ (roundUnits_lt_sign _ _)]
    split <;> split <;> simp_all

/-- A sum at most a binary32 value rounds to at most it. -/
theorem fadd_le {a b c : F32} (ha : isFinite a = true) (hb : isFinite b = true)
    (hc : isNaN c = false) (h : signedUnits a + signedUnits b ≤ signedUnits c) :
    fle (fadd a b) c = true := by
  rw [fle_iff]
  refine ⟨isNaN_fadd_finite ha hb, hc, ?_⟩
  rw [orderKey_fadd ha hb]
  rw [isNaN_eq_false_iff] at hc
  rw [signedUnits_eq c] at h
  unfold orderKey
  generalize signedUnits a + signedUnits b = z at *
  cases hs : signOf c <;> simp only [hs, Bool.false_eq_true, if_true, if_false] at h ⊢
  · split
    · omega
    · have := roundUnits_le_of_le (m := magOf c) (n := z.natAbs) (d := 1) (by decide) hc (by omega)
      omega
  · have hge := le_roundUnits (m := magOf c) (n := z.natAbs) (d := 1) (by decide) hc (by omega)
    split
    · omega
    · have h0 : magUnits (magOf c) = 0 := by omega
      have hz : z = 0 := by omega
      rw [magUnits_eq_zero] at h0
      rw [hz, show (0 : Int).natAbs = 0 from rfl, roundUnits_zero 1 (by decide), h0]
      simp

/-- A sum at least a binary32 value rounds to at least it. -/
theorem le_fadd {a b c : F32} (ha : isFinite a = true) (hb : isFinite b = true)
    (hc : isNaN c = false) (h : signedUnits c ≤ signedUnits a + signedUnits b) :
    fle c (fadd a b) = true := by
  rw [fle_iff]
  refine ⟨hc, isNaN_fadd_finite ha hb, ?_⟩
  rw [orderKey_fadd ha hb]
  rw [isNaN_eq_false_iff] at hc
  rw [signedUnits_eq c] at h
  unfold orderKey
  generalize signedUnits a + signedUnits b = z at *
  cases hs : signOf c <;> simp only [hs, Bool.false_eq_true, if_true, if_false] at h ⊢
  · have hge := le_roundUnits (m := magOf c) (n := z.natAbs) (d := 1) (by decide) hc (by omega)
    split
    · omega
    · omega
  · split
    · have := roundUnits_le_of_le (m := magOf c) (n := z.natAbs) (d := 1) (by decide) hc (by omega)
      omega
    · omega

/-- A sum that is a binary32 value other than zero is exact. -/
theorem fadd_exact {a b c : F32} (ha : isFinite a = true) (hb : isFinite b = true)
    (hc : isNaN c = false) (h : signedUnits a + signedUnits b = signedUnits c)
    (h0 : magOf c ≠ 0) : fadd a b = c := by
  have hne : signedUnits a + signedUnits b ≠ 0 := by
    rw [h]
    intro h1
    exact h0 ((signedUnits_eq_zero c).mp h1)
  rw [fadd_finite ha hb hne, h, natAbs_signedUnits]
  have hr := roundUnits_magUnits (magOf c) 1 (by decide) ((isNaN_eq_false_iff c).mp hc)
  rw [Nat.mul_one] at hr
  rw [hr]
  have hs : decide (signedUnits c < 0) = signOf c := by
    have hp : 0 < magUnits (magOf c) := magUnits_pos.mpr (Nat.pos_of_ne_zero h0)
    rw [signedUnits_eq]
    cases signOf c
    · simp
    · simp
      omega
  rw [hs, ofParts_sign_mag]

/-- The sign of a sum of finite values neither of which is negative. -/
theorem signOf_fadd_nonneg {a b : F32} (ha : isFinite a = true) (hb : isFinite b = true)
    (h : 0 ≤ signedUnits a + signedUnits b) (hs : (signOf a && signOf b) = false) :
    signOf (fadd a b) = false := by
  by_cases h0 : signedUnits a + signedUnits b = 0
  · rw [fadd_finite_zero ha hb h0, signOf_ofParts _ _ (by decide), hs]
  · rw [fadd_finite ha hb h0, signOf_ofParts _ _ (roundUnits_lt_sign _ _)]
    simp
    omega

/-- Every NaN an addition answers is the canonical one (R12). -/
theorem fadd_canonical (a b : F32) (h : isNaN (fadd a b) = true) : fadd a b = QNAN := by
  by_cases hn : isNaN a = true ∨ isNaN b = true
  · exact fadd_of_nan hn
  · rw [not_or, Bool.not_eq_true, Bool.not_eq_true] at hn
    revert h
    unfold fadd
    simp only [hn.1, hn.2, Bool.or_false, Bool.false_eq_true, if_false]
    split
    · split
      · exact fun _ => rfl
      · intro h
        rw [hn.1] at h
        exact absurd h (by decide)
    · split
      · intro h
        rw [hn.2] at h
        exact absurd h (by decide)
      · split
        · intro h
          rw [isNaN_ofParts (by decide)] at h
          exact absurd h (by decide)
        · intro h
          rw [isNaN_ofParts_roundUnits] at h
          exact absurd h (by decide)

/-! ## Subtraction -/

theorem fsub_of_nan {a b : F32} (h : isNaN a = true ∨ isNaN b = true) : fsub a b = QNAN :=
  fadd_of_nan (by rwa [isNaN_fneg])

theorem isNaN_fsub_finite {a b : F32} (ha : isFinite a = true) (hb : isFinite b = true) :
    isNaN (fsub a b) = false := isNaN_fadd_finite ha (by rwa [isFinite_fneg])

theorem fsub_le {a b c : F32} (ha : isFinite a = true) (hb : isFinite b = true)
    (hc : isNaN c = false) (h : signedUnits a - signedUnits b ≤ signedUnits c) :
    fle (fsub a b) c = true :=
  fadd_le ha (by rwa [isFinite_fneg]) hc (by rw [signedUnits_fneg]; omega)

theorem le_fsub {a b c : F32} (ha : isFinite a = true) (hb : isFinite b = true)
    (hc : isNaN c = false) (h : signedUnits c ≤ signedUnits a - signedUnits b) :
    fle c (fsub a b) = true :=
  le_fadd ha (by rwa [isFinite_fneg]) hc (by rw [signedUnits_fneg]; omega)

theorem fsub_exact {a b c : F32} (ha : isFinite a = true) (hb : isFinite b = true)
    (hc : isNaN c = false) (h : signedUnits a - signedUnits b = signedUnits c)
    (h0 : magOf c ≠ 0) : fsub a b = c :=
  fadd_exact ha (by rwa [isFinite_fneg]) hc (by rw [signedUnits_fneg]; omega) h0

/-- Equal finite values differ by `+0.0` unless the first is a negative zero and the second a positive
one. -/
theorem fsub_zero {a b : F32} (ha : isFinite a = true) (hb : isFinite b = true)
    (h : signedUnits a = signedUnits b) : fsub a b = ofParts (signOf a && !signOf b) 0 := by
  unfold fsub
  rw [fadd_finite_zero ha (by rwa [isFinite_fneg]) (by rw [signedUnits_fneg]; omega), signOf_fneg]

theorem signOf_fsub_nonneg {a b : F32} (ha : isFinite a = true) (hb : isFinite b = true)
    (h : signedUnits b ≤ signedUnits a) (hs : (signOf a && !signOf b) = false) :
    signOf (fsub a b) = false :=
  signOf_fadd_nonneg ha (by rwa [isFinite_fneg]) (by rw [signedUnits_fneg]; omega)
    (by rwa [signOf_fneg])

theorem fsub_canonical (a b : F32) (h : isNaN (fsub a b) = true) : fsub a b = QNAN :=
  fadd_canonical _ _ h

/-! ## Multiplication -/

theorem fmul_of_nan {a b : F32} (h : isNaN a = true ∨ isNaN b = true) : fmul a b = QNAN := by
  unfold fmul
  rcases h with h | h <;> simp [h]

theorem fmul_finite {a b : F32} (ha : isFinite a = true) (hb : isFinite b = true) :
    fmul a b = ofParts (signOf a != signOf b) (roundUnits (unitsOf a * unitsOf b) (2 ^ 149)) := by
  unfold fmul
  simp [isNaN_of_isFinite ha, isNaN_of_isFinite hb, isInf_of_isFinite ha, isInf_of_isFinite hb]

theorem isNaN_fmul_finite {a b : F32} (ha : isFinite a = true) (hb : isFinite b = true) :
    isNaN (fmul a b) = false := by
  rw [fmul_finite ha hb]
  exact isNaN_ofParts_roundUnits _ _ _

theorem fmul_canonical (a b : F32) (h : isNaN (fmul a b) = true) : fmul a b = QNAN := by
  by_cases hn : isNaN a = true ∨ isNaN b = true
  · exact fmul_of_nan hn
  · rw [not_or, Bool.not_eq_true, Bool.not_eq_true] at hn
    revert h
    unfold fmul
    simp only [hn.1, hn.2, Bool.or_false, Bool.false_eq_true, if_false]
    split
    · split
      · exact fun _ => rfl
      · intro h
        rw [isNaN_ofParts (by decide)] at h
        exact absurd h (by decide)
    · intro h
      rw [isNaN_ofParts_roundUnits] at h
      exact absurd h (by decide)

/-! ## Division -/

theorem fdiv_of_nan {a b : F32} (h : isNaN a = true ∨ isNaN b = true) : fdiv a b = QNAN := by
  unfold fdiv
  rcases h with h | h <;> simp [h]

theorem fdiv_finite {a b : F32} (ha : isFinite a = true) (hb : isFinite b = true)
    (h0 : isZero b = false) :
    fdiv a b = ofParts (signOf a != signOf b) (roundUnits (unitsOf a * 2 ^ 149) (unitsOf b)) := by
  unfold fdiv
  simp [isNaN_of_isFinite ha, isNaN_of_isFinite hb, isInf_of_isFinite ha, isInf_of_isFinite hb, h0]

theorem fdiv_inf_finite {a b : F32} (ha : isInf a = true) (hb : isFinite b = true) :
    fdiv a b = ofParts (signOf a != signOf b) 0x7F800000 := by
  have hn : isNaN a = false := by
    rw [isInf_iff] at ha
    rw [isNaN_eq_false_iff]
    omega
  unfold fdiv
  simp [hn, ha, isNaN_of_isFinite hb, isInf_of_isFinite hb]

theorem fdiv_canonical (a b : F32) (h : isNaN (fdiv a b) = true) : fdiv a b = QNAN := by
  by_cases hn : isNaN a = true ∨ isNaN b = true
  · exact fdiv_of_nan hn
  · rw [not_or, Bool.not_eq_true, Bool.not_eq_true] at hn
    revert h
    unfold fdiv
    simp only [hn.1, hn.2, Bool.or_false, Bool.false_eq_true, if_false]
    split
    · split
      · exact fun _ => rfl
      · intro h
        rw [isNaN_ofParts (by decide)] at h
        exact absurd h (by decide)
    · split
      · intro h
        rw [isNaN_ofParts (by decide)] at h
        exact absurd h (by decide)
      · split
        · split
          · exact fun _ => rfl
          · intro h
            rw [isNaN_ofParts (by decide)] at h
            exact absurd h (by decide)
        · intro h
          rw [isNaN_ofParts_roundUnits] at h
          exact absurd h (by decide)

/-- A quotient by a finite value greater than zero: no NaN, and the sign of the dividend. -/
theorem fdiv_pos_divisor {a b : F32} (ha : isNaN a = false) (hb : isFinite b = true)
    (hpos : fgt b ZERO = true) : isNaN (fdiv a b) = false ∧ signOf (fdiv a b) = signOf a := by
  have hb0 : signOf b = false ∧ isZero b = false := by
    rw [fgt_iff] at hpos
    have h := hpos.2.2
    have hz : orderKey ZERO = 0 := by decide
    rw [hz] at h
    unfold orderKey at h
    cases hs : signOf b
    · simp only [hs] at h
      refine ⟨rfl, ?_⟩
      rw [← Bool.not_eq_true, isZero_iff]
      simp at h
      omega
    · simp only [hs, if_true] at h
      omega
  by_cases hi : isInf a = true
  · rw [fdiv_inf_finite hi hb, hb0.1]
    exact ⟨isNaN_ofParts (by decide), by rw [signOf_ofParts _ _ (by decide)]; cases signOf a <;> rfl⟩
  · rw [Bool.not_eq_true] at hi
    rw [fdiv_finite (isFinite_of_not ha hi) hb hb0.2, hb0.1]
    exact ⟨isNaN_ofParts_roundUnits _ _ _, by
      rw [signOf_ofParts _ _ (roundUnits_lt_sign _ _)]
      cases signOf a <;> rfl⟩

/-! ## Clamping (R14, R122) -/

/-- A clamped value lies between the bounds. -/
theorem clampf_between {x lo hi : F32} (hx : isNaN x = false) (hlo : isNaN lo = false)
    (hhi : isNaN hi = false) (h : fle lo hi = true) :
    fle lo (clampf x lo hi) = true ∧ fle (clampf x lo hi) hi = true := by
  have hll : fle lo lo = true := fle_iff.mpr ⟨hlo, hlo, le_refl _⟩
  have hhh : fle hi hi = true := fle_iff.mpr ⟨hhi, hhi, le_refl _⟩
  unfold clampf
  split
  · exact ⟨hll, h⟩
  · rename_i h1
    rw [Bool.not_eq_true, not_flt_iff hx hlo] at h1
    split
    · exact ⟨h, hhh⟩
    · rename_i h2
      rw [Bool.not_eq_true, fgt, not_flt_iff hhi hx] at h2
      exact ⟨h1, h2⟩

end Sys2Proof.Machine
end

