-- ==== Sys2Proof/Laws/PerInstr.lean ====
section
/-! SUPPORT. Statements made for each command by name. -/

namespace Sys2Proof.Laws

/-- The word of a command has `RES` zero and the command's own opcode (R90, R91). -/
def Fields.Statement (i : Instr) : Prop :=
  resField (encode i) = 0#24 ∧ opField (encode i) = opcodeOf i

theorem Fields.of_encode (i : Instr) : Fields.Statement i :=
  ⟨resField_encodeFields _ _, opField_encodeFields _ _⟩

theorem Fields.nop : Fields.Statement .nop := Fields.of_encode _
theorem Fields.setFreq (d : F32) : Fields.Statement (.setFreq d) := Fields.of_encode _
theorem Fields.setWave (d : U32) : Fields.Statement (.setWave d) := Fields.of_encode _
theorem Fields.setOffset (d : F32) : Fields.Statement (.setOffset d) := Fields.of_encode _
theorem Fields.setDepth (d : F32) : Fields.Statement (.setDepth d) := Fields.of_encode _
theorem Fields.setShape (d : F32) : Fields.Statement (.setShape d) := Fields.of_encode _
theorem Fields.setPw (d : F32) : Fields.Statement (.setPw d) := Fields.of_encode _
theorem Fields.setSmooth (d : F32) : Fields.Statement (.setSmooth d) := Fields.of_encode _
theorem Fields.setSr (d : F32) : Fields.Statement (.setSr d) := Fields.of_encode _
theorem Fields.resetPhase : Fields.Statement .resetPhase := Fields.of_encode _
theorem Fields.tick : Fields.Statement .tick := Fields.of_encode _
theorem Fields.read (r : RegNum) : Fields.Statement (.read r) := Fields.of_encode _

end Sys2Proof.Laws
end

