-- ==== Sys2Proof/Laws/State.lean ====
section
/-! SUPPORT. What each write port leaves in each register, and what completing a command leaves in
the machine: one lemma per field per update. -/

namespace Sys2Proof.Machine

variable (o : Osc) (s : State)

/-! ### writeFreq -/

@[simp] theorem Osc.writeFreq_freq (v : F32) : (o.writeFreq v).freq = v := rfl
@[simp] theorem Osc.writeFreq_wave (v : F32) : (o.writeFreq v).wave = o.wave := rfl
@[simp] theorem Osc.writeFreq_offset (v : F32) : (o.writeFreq v).offset = o.offset := rfl
@[simp] theorem Osc.writeFreq_depth (v : F32) : (o.writeFreq v).depth = o.depth := rfl
@[simp] theorem Osc.writeFreq_shape (v : F32) : (o.writeFreq v).shape = o.shape := rfl
@[simp] theorem Osc.writeFreq_pw (v : F32) : (o.writeFreq v).pw = o.pw := rfl
@[simp] theorem Osc.writeFreq_scoef (v : F32) : (o.writeFreq v).scoef = o.scoef := rfl
@[simp] theorem Osc.writeFreq_sr (v : F32) : (o.writeFreq v).sr = o.sr := rfl
@[simp] theorem Osc.writeFreq_phase (v : F32) : (o.writeFreq v).phase = o.phase := rfl
@[simp] theorem Osc.writeFreq_pinc (v : F32) : (o.writeFreq v).pinc = o.pinc := rfl
@[simp] theorem Osc.writeFreq_held (v : F32) : (o.writeFreq v).held = o.held := rfl
@[simp] theorem Osc.writeFreq_smoothed (v : F32) : (o.writeFreq v).smoothed = o.smoothed := rfl
@[simp] theorem Osc.writeFreq_idle (v : F32) : (o.writeFreq v).idle = o.idle := rfl
@[simp] theorem Osc.writeFreq_prbs (v : F32) : (o.writeFreq v).prbs = o.prbs := rfl
@[simp] theorem Osc.writeFreq_err (v : F32) : (o.writeFreq v).err = o.err := rfl

/-! ### writeWave -/

@[simp] theorem Osc.writeWave_freq (v : Waveform) : (o.writeWave v).freq = o.freq := rfl
@[simp] theorem Osc.writeWave_wave (v : Waveform) : (o.writeWave v).wave = v := rfl
@[simp] theorem Osc.writeWave_offset (v : Waveform) : (o.writeWave v).offset = o.offset := rfl
@[simp] theorem Osc.writeWave_depth (v : Waveform) : (o.writeWave v).depth = o.depth := rfl
@[simp] theorem Osc.writeWave_shape (v : Waveform) : (o.writeWave v).shape = o.shape := rfl
@[simp] theorem Osc.writeWave_pw (v : Waveform) : (o.writeWave v).pw = o.pw := rfl
@[simp] theorem Osc.writeWave_scoef (v : Waveform) : (o.writeWave v).scoef = o.scoef := rfl
@[simp] theorem Osc.writeWave_sr (v : Waveform) : (o.writeWave v).sr = o.sr := rfl
@[simp] theorem Osc.writeWave_phase (v : Waveform) : (o.writeWave v).phase = o.phase := rfl
@[simp] theorem Osc.writeWave_pinc (v : Waveform) : (o.writeWave v).pinc = o.pinc := rfl
@[simp] theorem Osc.writeWave_held (v : Waveform) : (o.writeWave v).held = o.held := rfl
@[simp] theorem Osc.writeWave_smoothed (v : Waveform) : (o.writeWave v).smoothed = o.smoothed := rfl
@[simp] theorem Osc.writeWave_idle (v : Waveform) : (o.writeWave v).idle = o.idle := rfl
@[simp] theorem Osc.writeWave_prbs (v : Waveform) : (o.writeWave v).prbs = o.prbs := rfl
@[simp] theorem Osc.writeWave_err (v : Waveform) : (o.writeWave v).err = o.err := rfl

/-! ### writeOffset -/

@[simp] theorem Osc.writeOffset_freq (v : F32) : (o.writeOffset v).freq = o.freq := rfl
@[simp] theorem Osc.writeOffset_wave (v : F32) : (o.writeOffset v).wave = o.wave := rfl
@[simp] theorem Osc.writeOffset_offset (v : F32) : (o.writeOffset v).offset = v := rfl
@[simp] theorem Osc.writeOffset_depth (v : F32) : (o.writeOffset v).depth = o.depth := rfl
@[simp] theorem Osc.writeOffset_shape (v : F32) : (o.writeOffset v).shape = o.shape := rfl
@[simp] theorem Osc.writeOffset_pw (v : F32) : (o.writeOffset v).pw = o.pw := rfl
@[simp] theorem Osc.writeOffset_scoef (v : F32) : (o.writeOffset v).scoef = o.scoef := rfl
@[simp] theorem Osc.writeOffset_sr (v : F32) : (o.writeOffset v).sr = o.sr := rfl
@[simp] theorem Osc.writeOffset_phase (v : F32) : (o.writeOffset v).phase = o.phase := rfl
@[simp] theorem Osc.writeOffset_pinc (v : F32) : (o.writeOffset v).pinc = o.pinc := rfl
@[simp] theorem Osc.writeOffset_held (v : F32) : (o.writeOffset v).held = o.held := rfl
@[simp] theorem Osc.writeOffset_smoothed (v : F32) : (o.writeOffset v).smoothed = o.smoothed := rfl
@[simp] theorem Osc.writeOffset_idle (v : F32) : (o.writeOffset v).idle = o.idle := rfl
@[simp] theorem Osc.writeOffset_prbs (v : F32) : (o.writeOffset v).prbs = o.prbs := rfl
@[simp] theorem Osc.writeOffset_err (v : F32) : (o.writeOffset v).err = o.err := rfl

/-! ### writeDepth -/

@[simp] theorem Osc.writeDepth_freq (v : F32) : (o.writeDepth v).freq = o.freq := rfl
@[simp] theorem Osc.writeDepth_wave (v : F32) : (o.writeDepth v).wave = o.wave := rfl
@[simp] theorem Osc.writeDepth_offset (v : F32) : (o.writeDepth v).offset = o.offset := rfl
@[simp] theorem Osc.writeDepth_depth (v : F32) : (o.writeDepth v).depth = v := rfl
@[simp] theorem Osc.writeDepth_shape (v : F32) : (o.writeDepth v).shape = o.shape := rfl
@[simp] theorem Osc.writeDepth_pw (v : F32) : (o.writeDepth v).pw = o.pw := rfl
@[simp] theorem Osc.writeDepth_scoef (v : F32) : (o.writeDepth v).scoef = o.scoef := rfl
@[simp] theorem Osc.writeDepth_sr (v : F32) : (o.writeDepth v).sr = o.sr := rfl
@[simp] theorem Osc.writeDepth_phase (v : F32) : (o.writeDepth v).phase = o.phase := rfl
@[simp] theorem Osc.writeDepth_pinc (v : F32) : (o.writeDepth v).pinc = o.pinc := rfl
@[simp] theorem Osc.writeDepth_held (v : F32) : (o.writeDepth v).held = o.held := rfl
@[simp] theorem Osc.writeDepth_smoothed (v : F32) : (o.writeDepth v).smoothed = o.smoothed := rfl
@[simp] theorem Osc.writeDepth_idle (v : F32) : (o.writeDepth v).idle = o.idle := rfl
@[simp] theorem Osc.writeDepth_prbs (v : F32) : (o.writeDepth v).prbs = o.prbs := rfl
@[simp] theorem Osc.writeDepth_err (v : F32) : (o.writeDepth v).err = o.err := rfl

/-! ### writeShape -/

@[simp] theorem Osc.writeShape_freq (v : F32) : (o.writeShape v).freq = o.freq := rfl
@[simp] theorem Osc.writeShape_wave (v : F32) : (o.writeShape v).wave = o.wave := rfl
@[simp] theorem Osc.writeShape_offset (v : F32) : (o.writeShape v).offset = o.offset := rfl
@[simp] theorem Osc.writeShape_depth (v : F32) : (o.writeShape v).depth = o.depth := rfl
@[simp] theorem Osc.writeShape_shape (v : F32) : (o.writeShape v).shape = v := rfl
@[simp] theorem Osc.writeShape_pw (v : F32) : (o.writeShape v).pw = o.pw := rfl
@[simp] theorem Osc.writeShape_scoef (v : F32) : (o.writeShape v).scoef = o.scoef := rfl
@[simp] theorem Osc.writeShape_sr (v : F32) : (o.writeShape v).sr = o.sr := rfl
@[simp] theorem Osc.writeShape_phase (v : F32) : (o.writeShape v).phase = o.phase := rfl
@[simp] theorem Osc.writeShape_pinc (v : F32) : (o.writeShape v).pinc = o.pinc := rfl
@[simp] theorem Osc.writeShape_held (v : F32) : (o.writeShape v).held = o.held := rfl
@[simp] theorem Osc.writeShape_smoothed (v : F32) : (o.writeShape v).smoothed = o.smoothed := rfl
@[simp] theorem Osc.writeShape_idle (v : F32) : (o.writeShape v).idle = o.idle := rfl
@[simp] theorem Osc.writeShape_prbs (v : F32) : (o.writeShape v).prbs = o.prbs := rfl
@[simp] theorem Osc.writeShape_err (v : F32) : (o.writeShape v).err = o.err := rfl

/-! ### writePw -/

@[simp] theorem Osc.writePw_freq (v : F32) : (o.writePw v).freq = o.freq := rfl
@[simp] theorem Osc.writePw_wave (v : F32) : (o.writePw v).wave = o.wave := rfl
@[simp] theorem Osc.writePw_offset (v : F32) : (o.writePw v).offset = o.offset := rfl
@[simp] theorem Osc.writePw_depth (v : F32) : (o.writePw v).depth = o.depth := rfl
@[simp] theorem Osc.writePw_shape (v : F32) : (o.writePw v).shape = o.shape := rfl
@[simp] theorem Osc.writePw_pw (v : F32) : (o.writePw v).pw = v := rfl
@[simp] theorem Osc.writePw_scoef (v : F32) : (o.writePw v).scoef = o.scoef := rfl
@[simp] theorem Osc.writePw_sr (v : F32) : (o.writePw v).sr = o.sr := rfl
@[simp] theorem Osc.writePw_phase (v : F32) : (o.writePw v).phase = o.phase := rfl
@[simp] theorem Osc.writePw_pinc (v : F32) : (o.writePw v).pinc = o.pinc := rfl
@[simp] theorem Osc.writePw_held (v : F32) : (o.writePw v).held = o.held := rfl
@[simp] theorem Osc.writePw_smoothed (v : F32) : (o.writePw v).smoothed = o.smoothed := rfl
@[simp] theorem Osc.writePw_idle (v : F32) : (o.writePw v).idle = o.idle := rfl
@[simp] theorem Osc.writePw_prbs (v : F32) : (o.writePw v).prbs = o.prbs := rfl
@[simp] theorem Osc.writePw_err (v : F32) : (o.writePw v).err = o.err := rfl

/-! ### writeScoef -/

@[simp] theorem Osc.writeScoef_freq (v : F32) : (o.writeScoef v).freq = o.freq := rfl
@[simp] theorem Osc.writeScoef_wave (v : F32) : (o.writeScoef v).wave = o.wave := rfl
@[simp] theorem Osc.writeScoef_offset (v : F32) : (o.writeScoef v).offset = o.offset := rfl
@[simp] theorem Osc.writeScoef_depth (v : F32) : (o.writeScoef v).depth = o.depth := rfl
@[simp] theorem Osc.writeScoef_shape (v : F32) : (o.writeScoef v).shape = o.shape := rfl
@[simp] theorem Osc.writeScoef_pw (v : F32) : (o.writeScoef v).pw = o.pw := rfl
@[simp] theorem Osc.writeScoef_scoef (v : F32) : (o.writeScoef v).scoef = v := rfl
@[simp] theorem Osc.writeScoef_sr (v : F32) : (o.writeScoef v).sr = o.sr := rfl
@[simp] theorem Osc.writeScoef_phase (v : F32) : (o.writeScoef v).phase = o.phase := rfl
@[simp] theorem Osc.writeScoef_pinc (v : F32) : (o.writeScoef v).pinc = o.pinc := rfl
@[simp] theorem Osc.writeScoef_held (v : F32) : (o.writeScoef v).held = o.held := rfl
@[simp] theorem Osc.writeScoef_smoothed (v : F32) : (o.writeScoef v).smoothed = o.smoothed := rfl
@[simp] theorem Osc.writeScoef_idle (v : F32) : (o.writeScoef v).idle = o.idle := rfl
@[simp] theorem Osc.writeScoef_prbs (v : F32) : (o.writeScoef v).prbs = o.prbs := rfl
@[simp] theorem Osc.writeScoef_err (v : F32) : (o.writeScoef v).err = o.err := rfl

/-! ### writeSr -/

@[simp] theorem Osc.writeSr_freq (v : F32) : (o.writeSr v).freq = o.freq := rfl
@[simp] theorem Osc.writeSr_wave (v : F32) : (o.writeSr v).wave = o.wave := rfl
@[simp] theorem Osc.writeSr_offset (v : F32) : (o.writeSr v).offset = o.offset := rfl
@[simp] theorem Osc.writeSr_depth (v : F32) : (o.writeSr v).depth = o.depth := rfl
@[simp] theorem Osc.writeSr_shape (v : F32) : (o.writeSr v).shape = o.shape := rfl
@[simp] theorem Osc.writeSr_pw (v : F32) : (o.writeSr v).pw = o.pw := rfl
@[simp] theorem Osc.writeSr_scoef (v : F32) : (o.writeSr v).scoef = o.scoef := rfl
@[simp] theorem Osc.writeSr_sr (v : F32) : (o.writeSr v).sr = v := rfl
@[simp] theorem Osc.writeSr_phase (v : F32) : (o.writeSr v).phase = o.phase := rfl
@[simp] theorem Osc.writeSr_pinc (v : F32) : (o.writeSr v).pinc = o.pinc := rfl
@[simp] theorem Osc.writeSr_held (v : F32) : (o.writeSr v).held = o.held := rfl
@[simp] theorem Osc.writeSr_smoothed (v : F32) : (o.writeSr v).smoothed = o.smoothed := rfl
@[simp] theorem Osc.writeSr_idle (v : F32) : (o.writeSr v).idle = o.idle := rfl
@[simp] theorem Osc.writeSr_prbs (v : F32) : (o.writeSr v).prbs = o.prbs := rfl
@[simp] theorem Osc.writeSr_err (v : F32) : (o.writeSr v).err = o.err := rfl

/-! ### writePhase -/

@[simp] theorem Osc.writePhase_freq (v : F32) : (o.writePhase v).freq = o.freq := rfl
@[simp] theorem Osc.writePhase_wave (v : F32) : (o.writePhase v).wave = o.wave := rfl
@[simp] theorem Osc.writePhase_offset (v : F32) : (o.writePhase v).offset = o.offset := rfl
@[simp] theorem Osc.writePhase_depth (v : F32) : (o.writePhase v).depth = o.depth := rfl
@[simp] theorem Osc.writePhase_shape (v : F32) : (o.writePhase v).shape = o.shape := rfl
@[simp] theorem Osc.writePhase_pw (v : F32) : (o.writePhase v).pw = o.pw := rfl
@[simp] theorem Osc.writePhase_scoef (v : F32) : (o.writePhase v).scoef = o.scoef := rfl
@[simp] theorem Osc.writePhase_sr (v : F32) : (o.writePhase v).sr = o.sr := rfl
@[simp] theorem Osc.writePhase_phase (v : F32) : (o.writePhase v).phase = v := rfl
@[simp] theorem Osc.writePhase_pinc (v : F32) : (o.writePhase v).pinc = o.pinc := rfl
@[simp] theorem Osc.writePhase_held (v : F32) : (o.writePhase v).held = o.held := rfl
@[simp] theorem Osc.writePhase_smoothed (v : F32) : (o.writePhase v).smoothed = o.smoothed := rfl
@[simp] theorem Osc.writePhase_idle (v : F32) : (o.writePhase v).idle = o.idle := rfl
@[simp] theorem Osc.writePhase_prbs (v : F32) : (o.writePhase v).prbs = o.prbs := rfl
@[simp] theorem Osc.writePhase_err (v : F32) : (o.writePhase v).err = o.err := rfl

/-! ### writePinc -/

@[simp] theorem Osc.writePinc_freq (v : F32) : (o.writePinc v).freq = o.freq := rfl
@[simp] theorem Osc.writePinc_wave (v : F32) : (o.writePinc v).wave = o.wave := rfl
@[simp] theorem Osc.writePinc_offset (v : F32) : (o.writePinc v).offset = o.offset := rfl
@[simp] theorem Osc.writePinc_depth (v : F32) : (o.writePinc v).depth = o.depth := rfl
@[simp] theorem Osc.writePinc_shape (v : F32) : (o.writePinc v).shape = o.shape := rfl
@[simp] theorem Osc.writePinc_pw (v : F32) : (o.writePinc v).pw = o.pw := rfl
@[simp] theorem Osc.writePinc_scoef (v : F32) : (o.writePinc v).scoef = o.scoef := rfl
@[simp] theorem Osc.writePinc_sr (v : F32) : (o.writePinc v).sr = o.sr := rfl
@[simp] theorem Osc.writePinc_phase (v : F32) : (o.writePinc v).phase = o.phase := rfl
@[simp] theorem Osc.writePinc_pinc (v : F32) : (o.writePinc v).pinc = v := rfl
@[simp] theorem Osc.writePinc_held (v : F32) : (o.writePinc v).held = o.held := rfl
@[simp] theorem Osc.writePinc_smoothed (v : F32) : (o.writePinc v).smoothed = o.smoothed := rfl
@[simp] theorem Osc.writePinc_idle (v : F32) : (o.writePinc v).idle = o.idle := rfl
@[simp] theorem Osc.writePinc_prbs (v : F32) : (o.writePinc v).prbs = o.prbs := rfl
@[simp] theorem Osc.writePinc_err (v : F32) : (o.writePinc v).err = o.err := rfl

/-! ### writeHeld -/

@[simp] theorem Osc.writeHeld_freq (v : F32) : (o.writeHeld v).freq = o.freq := rfl
@[simp] theorem Osc.writeHeld_wave (v : F32) : (o.writeHeld v).wave = o.wave := rfl
@[simp] theorem Osc.writeHeld_offset (v : F32) : (o.writeHeld v).offset = o.offset := rfl
@[simp] theorem Osc.writeHeld_depth (v : F32) : (o.writeHeld v).depth = o.depth := rfl
@[simp] theorem Osc.writeHeld_shape (v : F32) : (o.writeHeld v).shape = o.shape := rfl
@[simp] theorem Osc.writeHeld_pw (v : F32) : (o.writeHeld v).pw = o.pw := rfl
@[simp] theorem Osc.writeHeld_scoef (v : F32) : (o.writeHeld v).scoef = o.scoef := rfl
@[simp] theorem Osc.writeHeld_sr (v : F32) : (o.writeHeld v).sr = o.sr := rfl
@[simp] theorem Osc.writeHeld_phase (v : F32) : (o.writeHeld v).phase = o.phase := rfl
@[simp] theorem Osc.writeHeld_pinc (v : F32) : (o.writeHeld v).pinc = o.pinc := rfl
@[simp] theorem Osc.writeHeld_held (v : F32) : (o.writeHeld v).held = v := rfl
@[simp] theorem Osc.writeHeld_smoothed (v : F32) : (o.writeHeld v).smoothed = o.smoothed := rfl
@[simp] theorem Osc.writeHeld_idle (v : F32) : (o.writeHeld v).idle = o.idle := rfl
@[simp] theorem Osc.writeHeld_prbs (v : F32) : (o.writeHeld v).prbs = o.prbs := rfl
@[simp] theorem Osc.writeHeld_err (v : F32) : (o.writeHeld v).err = o.err := rfl

/-! ### writeSmoothed -/

@[simp] theorem Osc.writeSmoothed_freq (v : F32) : (o.writeSmoothed v).freq = o.freq := rfl
@[simp] theorem Osc.writeSmoothed_wave (v : F32) : (o.writeSmoothed v).wave = o.wave := rfl
@[simp] theorem Osc.writeSmoothed_offset (v : F32) : (o.writeSmoothed v).offset = o.offset := rfl
@[simp] theorem Osc.writeSmoothed_depth (v : F32) : (o.writeSmoothed v).depth = o.depth := rfl
@[simp] theorem Osc.writeSmoothed_shape (v : F32) : (o.writeSmoothed v).shape = o.shape := rfl
@[simp] theorem Osc.writeSmoothed_pw (v : F32) : (o.writeSmoothed v).pw = o.pw := rfl
@[simp] theorem Osc.writeSmoothed_scoef (v : F32) : (o.writeSmoothed v).scoef = o.scoef := rfl
@[simp] theorem Osc.writeSmoothed_sr (v : F32) : (o.writeSmoothed v).sr = o.sr := rfl
@[simp] theorem Osc.writeSmoothed_phase (v : F32) : (o.writeSmoothed v).phase = o.phase := rfl
@[simp] theorem Osc.writeSmoothed_pinc (v : F32) : (o.writeSmoothed v).pinc = o.pinc := rfl
@[simp] theorem Osc.writeSmoothed_held (v : F32) : (o.writeSmoothed v).held = o.held := rfl
@[simp] theorem Osc.writeSmoothed_smoothed (v : F32) : (o.writeSmoothed v).smoothed = v := rfl
@[simp] theorem Osc.writeSmoothed_idle (v : F32) : (o.writeSmoothed v).idle = o.idle := rfl
@[simp] theorem Osc.writeSmoothed_prbs (v : F32) : (o.writeSmoothed v).prbs = o.prbs := rfl
@[simp] theorem Osc.writeSmoothed_err (v : F32) : (o.writeSmoothed v).err = o.err := rfl

/-! ### writePrbs -/

@[simp] theorem Osc.writePrbs_freq (v : U32) : (o.writePrbs v).freq = o.freq := rfl
@[simp] theorem Osc.writePrbs_wave (v : U32) : (o.writePrbs v).wave = o.wave := rfl
@[simp] theorem Osc.writePrbs_offset (v : U32) : (o.writePrbs v).offset = o.offset := rfl
@[simp] theorem Osc.writePrbs_depth (v : U32) : (o.writePrbs v).depth = o.depth := rfl
@[simp] theorem Osc.writePrbs_shape (v : U32) : (o.writePrbs v).shape = o.shape := rfl
@[simp] theorem Osc.writePrbs_pw (v : U32) : (o.writePrbs v).pw = o.pw := rfl
@[simp] theorem Osc.writePrbs_scoef (v : U32) : (o.writePrbs v).scoef = o.scoef := rfl
@[simp] theorem Osc.writePrbs_sr (v : U32) : (o.writePrbs v).sr = o.sr := rfl
@[simp] theorem Osc.writePrbs_phase (v : U32) : (o.writePrbs v).phase = o.phase := rfl
@[simp] theorem Osc.writePrbs_pinc (v : U32) : (o.writePrbs v).pinc = o.pinc := rfl
@[simp] theorem Osc.writePrbs_held (v : U32) : (o.writePrbs v).held = o.held := rfl
@[simp] theorem Osc.writePrbs_smoothed (v : U32) : (o.writePrbs v).smoothed = o.smoothed := rfl
@[simp] theorem Osc.writePrbs_idle (v : U32) : (o.writePrbs v).idle = o.idle := rfl
@[simp] theorem Osc.writePrbs_prbs (v : U32) : (o.writePrbs v).prbs = v := rfl
@[simp] theorem Osc.writePrbs_err (v : U32) : (o.writePrbs v).err = o.err := rfl

/-! ### writeErr -/

@[simp] theorem Osc.writeErr_freq (v : Bool) : (o.writeErr v).freq = o.freq := rfl
@[simp] theorem Osc.writeErr_wave (v : Bool) : (o.writeErr v).wave = o.wave := rfl
@[simp] theorem Osc.writeErr_offset (v : Bool) : (o.writeErr v).offset = o.offset := rfl
@[simp] theorem Osc.writeErr_depth (v : Bool) : (o.writeErr v).depth = o.depth := rfl
@[simp] theorem Osc.writeErr_shape (v : Bool) : (o.writeErr v).shape = o.shape := rfl
@[simp] theorem Osc.writeErr_pw (v : Bool) : (o.writeErr v).pw = o.pw := rfl
@[simp] theorem Osc.writeErr_scoef (v : Bool) : (o.writeErr v).scoef = o.scoef := rfl
@[simp] theorem Osc.writeErr_sr (v : Bool) : (o.writeErr v).sr = o.sr := rfl
@[simp] theorem Osc.writeErr_phase (v : Bool) : (o.writeErr v).phase = o.phase := rfl
@[simp] theorem Osc.writeErr_pinc (v : Bool) : (o.writeErr v).pinc = o.pinc := rfl
@[simp] theorem Osc.writeErr_held (v : Bool) : (o.writeErr v).held = o.held := rfl
@[simp] theorem Osc.writeErr_smoothed (v : Bool) : (o.writeErr v).smoothed = o.smoothed := rfl
@[simp] theorem Osc.writeErr_idle (v : Bool) : (o.writeErr v).idle = o.idle := rfl
@[simp] theorem Osc.writeErr_prbs (v : Bool) : (o.writeErr v).prbs = o.prbs := rfl
@[simp] theorem Osc.writeErr_err (v : Bool) : (o.writeErr v).err = v := rfl

/-! ### finish and illegalCommand -/

@[simp] theorem State.finish_osc (p : Osc) (r : Resp) : (s.finish p r).osc = p := rfl
@[simp] theorem State.finish_pending (p : Osc) (r : Resp) : (s.finish p r).pending = s.pending := rfl
@[simp] theorem State.finish_resp (p : Osc) (r : Resp) : (s.finish p r).resp = some r := rfl
@[simp] theorem illegalCommand_osc : (illegalCommand s).osc = s.osc.writeErr true := rfl
@[simp] theorem illegalCommand_pending : (illegalCommand s).pending = s.pending := rfl
@[simp] theorem illegalCommand_resp : (illegalCommand s).resp = some Resp.empty := rfl
@[simp] theorem State.resetWith_osc (p : Config.Params) : (State.resetWith p).osc = Osc.resetWith p := rfl
@[simp] theorem State.resetWith_pending (p : Config.Params) : (State.resetWith p).pending = [] := rfl
@[simp] theorem State.resetWith_resp (p : Config.Params) : (State.resetWith p).resp = none := rfl
@[simp] theorem State.withFetchWord_osc (n w : Nat) : (s.withFetchWord n w).osc = s.osc := rfl
@[simp] theorem State.withFetchWord_resp (n w : Nat) : (s.withFetchWord n w).resp = s.resp := rfl
@[simp] theorem State.withFetchWord_pending (n w : Nat) :
    (s.withFetchWord n w).pending = tableWord n w :: s.pending := rfl

end Sys2Proof.Machine
end

