-- ==== Sys2Proof/Laws/Step.lean ====
section
/-! SUPPORT. What a command and a step can do: every command completes, and a step either finds no
command, or executes the one at the head of the host's list. -/

namespace Sys2Proof.Machine

/-! ## Operand forms -/

theorem f32Operand_nan {d : F32} (h : isNaN d = true) : f32Operand d = none := by
  simp [f32Operand, h]

theorem f32Operand_some {d : F32} (h : isNaN d = false) : f32Operand d = some d := by
  simp [f32Operand, h]

theorem sampleRateOperand_some {d v : F32} (h : sampleRateOperand d = some v) :
    v = d ∧ isFinite d = true ∧ fgt d ZERO = true := by
  unfold sampleRateOperand at h
  split at h
  · exact absurd h (by simp)
  · rename_i hc
    simp only [Bool.or_eq_true, Bool.not_eq_true', not_or, Bool.not_eq_true, Bool.not_eq_false] at hc
    refine ⟨(Option.some.inj h).symm, ?_, hc.2⟩
    have h1 := hc.1.1
    have h2 := hc.1.2
    simp only [isNaN, isInf, isFinite, Bool.and_eq_false_iff, beq_eq_false_iff_ne, bne_eq_false_iff_eq,
      bne_iff_ne] at *
    omega

/-- A waveform's index selects it, and nothing else selects a waveform. -/
theorem waveOfIndex_eq_some {d : U32} {w : Waveform} : waveOfIndex d = some w ↔ waveIndex w = d := by
  constructor
  · intro h
    unfold waveOfIndex at h
    split at h <;> rename_i hd <;> first
      | (cases Option.some.inj h; exact (BitVec.eq_of_toNat_eq hd).symm)
      | exact absurd h (by simp)
  · rintro rfl
    cases w <;> decide

theorem waveIndex_toNat_le (w : Waveform) : (waveIndex w).toNat ≤ 5 := by cases w <;> decide

/-! ## Setters -/

@[simp] theorem finishSetter_none {α : Type} (s : State) (write : Osc → α → Osc) :
    finishSetter s none write = s.finish s.osc Resp.empty := rfl

@[simp] theorem finishSetter_some {α : Type} (s : State) (v : α) (write : Osc → α → Osc) :
    finishSetter s (some v) write = s.finish (write s.osc v) Resp.empty := rfl

/-- A setter changes neither the host's list nor, but by its write, the block. -/
theorem finishSetter_cases {α : Type} (s : State) (operand : Option α) (write : Osc → α → Osc) :
    (operand = none ∧ finishSetter s operand write = s.finish s.osc Resp.empty) ∨
    ∃ v, operand = some v ∧ finishSetter s operand write = s.finish (write s.osc v) Resp.empty := by
  cases operand with
  | none => exact Or.inl ⟨rfl, rfl⟩
  | some v => exact Or.inr ⟨v, rfl, rfl⟩

/-! ## Commands -/

theorem readReg_isSome {o : Osc} {r : RegNum} (h : r ≠ 15#4) : ∃ v, readReg o r = some v := by
  have hr : r.toNat ≠ 15 := fun he => h (BitVec.eq_of_toNat_eq he)
  have := r.isLt
  unfold readReg
  generalize r.toNat = n at *
  have hn : n < 15 := by omega
  interval_cases n <;> exact ⟨_, rfl⟩

/-- What a command leaves: `S` and the response it gives. -/
def commandEffect : Instr → Osc → Osc × Resp
  | .nop, o => (o, Resp.empty)
  | .setFreq d, o => ((f32Operand d).elim o fun f => o.setFreq (freqValue f), Resp.empty)
  | .setWave d, o => ((waveOfIndex d).elim o o.writeWave, Resp.empty)
  | .setOffset d, o => ((f32Operand d).elim o o.writeOffset, Resp.empty)
  | .setDepth d, o => ((f32Operand d).elim o o.writeDepth, Resp.empty)
  | .setShape d, o => ((f32Operand d).elim o o.writeShape, Resp.empty)
  | .setPw d, o => ((f32Operand d).elim o fun f => o.writePw (pwValue f), Resp.empty)
  | .setSmooth d, o => ((f32Operand d).elim o fun f => o.writeScoef (scoefValue f), Resp.empty)
  | .setSr d, o => ((sampleRateOperand d).elim o o.setSr, Resp.empty)
  | .resetPhase, o => (o.writePhase ZERO, Resp.ofWrap)
  | .tick, o => tickOsc o
  | .read r, o => (readReg o r).elim (o.writeErr true, Resp.empty) fun v => (o, Resp.ofRead v)

/-- Every command completes, and its effect depends on `S` alone. -/
theorem exec_eq_finish (i : Instr) (s : State) :
    exec i s = .next (s.finish (commandEffect i s.osc).1 (commandEffect i s.osc).2) := by
  cases i with
  | nop => rfl
  | setFreq d =>
    simp only [exec, execSetFreq, commandEffect]
    cases f32Operand d <;> rfl
  | setWave d =>
    simp only [exec, execSetWave, commandEffect]
    cases waveOfIndex d <;> rfl
  | setOffset d =>
    simp only [exec, execSetOffset, commandEffect]
    cases f32Operand d <;> rfl
  | setDepth d =>
    simp only [exec, execSetDepth, commandEffect]
    cases f32Operand d <;> rfl
  | setShape d =>
    simp only [exec, execSetShape, commandEffect]
    cases f32Operand d <;> rfl
  | setPw d =>
    simp only [exec, execSetPw, commandEffect]
    cases f32Operand d <;> rfl
  | setSmooth d =>
    simp only [exec, execSetSmooth, commandEffect]
    cases f32Operand d <;> rfl
  | setSr d =>
    simp only [exec, execSetSr, commandEffect]
    cases sampleRateOperand d <;> rfl
  | resetPhase => rfl
  | tick => rfl
  | read r =>
    simp only [exec, execRead, commandEffect]
    cases readReg s.osc r <;> rfl

/-- What a word leaves, legal or not. -/
def wordEffect (w : Word) (o : Osc) : Osc × Resp :=
  match decode w with
  | .ok i => commandEffect i o
  | .error _ => (o.writeErr true, Resp.empty)

theorem wordEffect_ok {w : Word} {i : Instr} (h : decode w = .ok i) (o : Osc) :
    wordEffect w o = commandEffect i o := by simp [wordEffect, h]

theorem wordEffect_error {w : Word} {e : Illegal} (h : decode w = .error e) (o : Osc) :
    wordEffect w o = (o.writeErr true, Resp.empty) := by simp [wordEffect, h]

theorem transact_eq_finish (w : Word) (s : State) :
    transact w s = .next (s.finish (wordEffect w s.osc).1 (wordEffect w s.osc).2) := by
  unfold transact wordEffect
  cases decode w with
  | ok i => exact exec_eq_finish i s
  | error e => rfl

/-! ## Steps -/

theorem step_nil {s : State} (h : s.pending = []) : step s = .next s := by simp [step, h]

theorem step_cons {s : State} {w : Word} {rest : List Word} (h : s.pending = w :: rest) :
    step s = transact w { s with pending := rest } := by simp [step, h]

/-- What a step does, whole: nothing where the host has issued no command; else the effect of the
word at the head of its list, which is taken off, with its response. -/
theorem step_cases {s t : State} (h : step s = .next t) :
    (s.pending = [] ∧ t = s) ∨
    ∃ w rest, s.pending = w :: rest ∧
      t = { osc := (wordEffect w s.osc).1, pending := rest, resp := some (wordEffect w s.osc).2 } := by
  cases hp : s.pending with
  | nil =>
    rw [step_nil hp] at h
    exact Or.inl ⟨rfl, (Host.Outcome.next.inj h).symm⟩
  | cons w rest =>
    rw [step_cons hp, transact_eq_finish] at h
    exact Or.inr ⟨w, rest, rfl, (Host.Outcome.next.inj h).symm⟩

/-! ## Runs -/

@[simp] theorem observe_nil (s : State) : observe [] s = ([], s) := rfl

theorem observe_cons (w : Word) (ws : List Word) (s : State) :
    observe (w :: ws) s =
      ((wordEffect w s.osc).2 :: (observe ws (s.finish (wordEffect w s.osc).1 (wordEffect w s.osc).2)).1,
       (observe ws (s.finish (wordEffect w s.osc).1 (wordEffect w s.osc).2)).2) := by
  simp [observe, transact_eq_finish]

theorem decode_tickWord : decode tickWord = .ok .tick := by decide

theorem wordEffect_tickWord (o : Osc) : wordEffect tickWord o = tickOsc o :=
  wordEffect_ok decode_tickWord o

theorem renderWords_succ (n : Nat) : renderWords (n + 1) = tickWord :: renderWords n := rfl

/-! ## TICK -/

theorem tickOsc_idle {o : Osc} (h : isIdle o = true) : tickOsc o = idleTick o := by simp [tickOsc, h]

theorem tickOsc_running {o : Osc} (h : isIdle o = false) : tickOsc o = runningTick o := by
  simp [tickOsc, h]

/-- A wrap of the phase accumulator: the phase is not held, and the rounded sum reaches one. -/
def wraps (o : Osc) : Bool := !phaseHolds o && fge (phaseSum o) ONE

/-- The phase that ADVANCE leaves. -/
def nextPhase (o : Osc) : F32 :=
  if phaseHolds o then o.phase else if wraps o then fsub (phaseSum o) ONE else phaseSum o

/-- All that ADVANCE does. -/
theorem advance_eq (o : Osc) : advance o = ({ o with phase := nextPhase o }, wraps o) := by
  unfold advance nextPhase wraps
  cases phaseHolds o <;> cases fge (phaseSum o) ONE <;> rfl

theorem advance_holds {o : Osc} (h : phaseHolds o = true) : advance o = (o, false) := by
  simp [advance, h]

theorem advance_moves {o : Osc} (h : phaseHolds o = false) :
    advance o =
      if fge (phaseSum o) ONE then ({ o with phase := fsub (phaseSum o) ONE }, true)
      else ({ o with phase := phaseSum o }, false) := by
  simp [advance, h, Osc.writePhase]

theorem phaseHolds_iff {o : Osc} :
    phaseHolds o = true ↔ feq o.pinc ZERO = true ∧ isFinite o.phase = true := by
  simp [phaseHolds]

/-- What a Running TICK leaves, register by register. -/
theorem runningTick_eq (o : Osc) :
    runningTick o =
      ({ o with
          smoothed := filterValue o (tickTarget o)
          phase := nextPhase o
          prbs := if wraps o && o.wave == .randomHold then lfsrStep o.prbs else o.prbs
          held := if wraps o && o.wave == .randomHold then prbsValue (lfsrStep o.prbs) else o.held },
       { sample := some (filterValue o (tickTarget o)), wrap := wraps o, rdata := none }) := by
  have hw : ∀ t, wraps (filter o t) = wraps o := fun _ => rfl
  have hp : ∀ t, nextPhase (filter o t) = nextPhase o := fun _ => rfl
  unfold runningTick
  simp only [advance_eq, hw, hp]
  cases wraps o
  · simp [afterWrap, Resp.ofTick, filter, Osc.writeSmoothed]
  · by_cases hr : o.wave = .randomHold
    · simp [afterWrap, Resp.ofTick, filter, onWrap, Osc.writeSmoothed, Osc.writePrbs,
        Osc.writeHeld, hr]
    · simp [afterWrap, Resp.ofTick, filter, Osc.writeSmoothed, hr]

end Sys2Proof.Machine
end

