-- ==== Sys2Proof/Laws/Waveform.lean ====
section
/-! SUPPORT. The ranges the waveform engine and the setters work in: doubling is exact, the unit
interval is a range of patterns, and the power function is called inside its domain. -/

namespace Sys2Proof.Machine

open Sys2Proof.Config

/-! ## Values of the constants -/

theorem signedUnits_ONE : signedUnits ONE = 2 ^ 149 := by decide
theorem signedUnits_MINUS_ONE : signedUnits MINUS_ONE = -2 ^ 149 := by decide
theorem signedUnits_ZERO : signedUnits ZERO = 0 := by decide
theorem signedUnits_TWO : signedUnits TWO = 2 * 2 ^ 149 := by decide
theorem magUnits_one : magUnits 0x3F800000 = 2 ^ 149 := by decide
theorem isFinite_ONE : isFinite ONE = true := by decide
theorem isFinite_MINUS_ONE : isFinite MINUS_ONE = true := by decide
theorem isFinite_ZERO : isFinite ZERO = true := by decide
theorem orderKey_ONE : orderKey ONE = 0x3F800000 := by decide
theorem orderKey_ZERO : orderKey ZERO = 0 := by decide
theorem orderKey_INF : orderKey INF = 0x7F800000 := by decide

theorem eq_of_sign_mag {x : F32} {s : Bool} {m : Nat} (hs : signOf x = s) (hm : magOf x = m) :
    x = ofParts s m := by rw [← ofParts_sign_mag x, hs, hm]

/-! ## The unit interval -/

theorem inUnit_iff (x : F32) : inUnit x ↔ signOf x = false ∧ magOf x ≤ 0x3F800000 := by
  constructor
  · rintro ⟨hs, hx⟩
    rw [fle_iff, orderKey_nonneg hs, orderKey_ONE] at hx
    exact ⟨hs, by omega⟩
  · rintro ⟨hs, hm⟩
    refine ⟨hs, ?_⟩
    rw [fle_iff, orderKey_nonneg hs, orderKey_ONE]
    exact ⟨by rw [isNaN_eq_false_iff]; omega, by decide, by omega⟩

theorem inHalfOpenUnit_iff (x : F32) :
    inHalfOpenUnit x ↔ signOf x = false ∧ magOf x < 0x3F800000 := by
  constructor
  · rintro ⟨hs, hx⟩
    rw [flt_iff, orderKey_nonneg hs, orderKey_ONE] at hx
    exact ⟨hs, by omega⟩
  · rintro ⟨hs, hm⟩
    refine ⟨hs, ?_⟩
    rw [flt_iff, orderKey_nonneg hs, orderKey_ONE]
    exact ⟨by rw [isNaN_eq_false_iff]; omega, by decide, by omega⟩

theorem inUnit_zero_le {x : F32} (h : inUnit x) : fle ZERO x = true := by
  rw [inUnit_iff] at h
  rw [fle_iff, orderKey_ZERO, orderKey_nonneg h.1]
  exact ⟨by decide, by rw [isNaN_eq_false_iff]; omega, by omega⟩

theorem powBase_of_inUnit {x : F32} (h : inUnit x) : powBase x = true := by
  simp only [powBase, Bool.and_eq_true, bne_iff_ne]
  refine ⟨⟨inUnit_zero_le h, h.2⟩, ?_⟩
  rintro rfl
  exact absurd h.1 (by decide)

/-- A value between the two ends, `-0.0` among them: magnitude at most that of one. -/
theorem between_zero_one {y : F32} (h0 : fle ZERO y = true) (h1 : fle y ONE = true) :
    magOf y ≤ 0x3F800000 ∧ 0 ≤ signedUnits y ∧ signedUnits y ≤ 2 ^ 149 := by
  rw [fle_iff] at h0 h1
  have a := (orderKey_le_iff _ _).mp h0.2.2
  have b := (orderKey_le_iff _ _).mp h1.2.2
  rw [signedUnits_ZERO] at a
  rw [signedUnits_ONE] at b
  refine ⟨?_, a, b⟩
  have h2 := h0.2.2
  have h3 := h1.2.2
  rw [orderKey_ZERO] at h2
  rw [orderKey_ONE] at h3
  unfold orderKey at h2 h3
  split at h2
  · omega
  · rename_i hs
    rw [if_neg hs] at h3
    omega

theorem isFinite_of_mag_le_one {y : F32} (h : magOf y ≤ 0x3F800000) : isFinite y = true := by
  rw [isFinite_iff]
  omega

theorem inUnit_clamp01 {x : F32} (hs : signOf x = false) (hn : isNaN x = false) :
    inUnit (clamp01 x) := by
  have hx0 : flt x ZERO = false := by
    rw [← Bool.not_eq_true, flt_iff, orderKey_ZERO, orderKey_nonneg hs]
    omega
  unfold clamp01 clampf
  rw [hx0]
  simp only [Bool.false_eq_true, if_false]
  split
  · exact ⟨by decide, by decide⟩
  · rename_i h
    rw [Bool.not_eq_true, fgt, not_flt_iff (by decide) hn] at h
    exact ⟨hs, h⟩

/-! ## Doubling -/

/-- The magnitude of twice a value. -/
def double (m : Nat) : Nat := if m < 8388608 then 2 * m else m + 8388608

theorem magUnits_double (m : Nat) : magUnits (double m) = 2 * magUnits m := by
  unfold double
  split
  · rw [magUnits_small (by omega), magUnits_small (by omega)]
  · obtain ⟨k, t, rfl, h1, h2⟩ : ∃ k t, m = k * 8388608 + t ∧ 8388608 ≤ t ∧ t < 16777216 :=
      ⟨m / 8388608 - 1, m % 8388608 + 8388608, by omega, by omega, by omega⟩
    have e : k * 8388608 + t + 8388608 = (k + 1) * 8388608 + t := by omega
    rw [e, magUnits_binade k t (Or.inr h1) (by omega),
      magUnits_binade (k + 1) t (Or.inr h1) (by omega), pow_succ]
    ring

/-- A significand of up to 24 bits, shifted by any exponent, is the units of some magnitude. -/
theorem exists_magUnits (t k : Nat) (ht : t < 16777216) :
    ∃ m, m ≤ t + k * 8388608 ∧ magUnits m = t * 2 ^ k := by
  induction k with
  | zero => exact ⟨t, by omega, by rw [magUnits_small ht, pow_zero, Nat.mul_one]⟩
  | succ k ih =>
    obtain ⟨m, hm, he⟩ := ih
    refine ⟨double m, ?_, ?_⟩
    · unfold double
      split <;> omega
    · rw [magUnits_double, he, pow_succ]
      ring

/-- Such a value is not rounded. -/
theorem magUnits_roundUnits_shift (t k : Nat) (ht : t < 16777216) (hk : k ≤ 252) :
    magUnits (roundUnits (t * 2 ^ k) 1) = t * 2 ^ k ∧ roundUnits (t * 2 ^ k) 1 < 0x7F800000 := by
  obtain ⟨m, hm, he⟩ := exists_magUnits t k ht
  have hr := roundUnits_magUnits m 1 (by decide) (by omega)
  rw [Nat.mul_one, he] at hr
  rw [hr]
  exact ⟨he, by omega⟩

/-- Twice a value is exact, unless it is past the largest finite value. -/
theorem fmul_two {x : F32} (hn : isNaN x = false) :
    fmul TWO x = ofParts (signOf x) (min (double (magOf x)) 0x7F800000) := by
  have hs : (signOf TWO != signOf x) = signOf x := by
    rw [show signOf TWO = false from by decide]
    cases signOf x <;> rfl
  by_cases hi : isInf x = true
  · have hm := (isInf_iff x).mp hi
    have : double (magOf x) = 0x80000000 := by rw [hm]; decide
    unfold fmul
    have h1 : isNaN TWO = false := by decide
    have h2 : isInf TWO = false := by decide
    have h3 : isZero TWO = false := by decide
    have h4 : isZero x = false := by
      rw [← Bool.not_eq_true, isZero_iff]
      omega
    simp only [h1, h2, h3, h4, hn, hi, hs, this, Bool.or_false, Bool.or_true, Bool.false_eq_true,
      if_false, if_true]
    rfl
  · rw [Bool.not_eq_true] at hi
    have hf := isFinite_of_not hn hi
    rw [fmul_finite (by decide) hf, hs]
    congr 1
    have hu : unitsOf TWO * unitsOf x = magUnits (double (magOf x)) * 2 ^ 149 := by
      rw [magUnits_double, unitsOf_eq x, show unitsOf TWO = 2 * 2 ^ 149 from by decide]
      ring
    rw [hu]
    rcases Nat.le_total (double (magOf x)) 0x7F800000 with h | h
    · rw [roundUnits_magUnits _ _ (Nat.two_pow_pos _) h, Nat.min_eq_left h]
    · rw [Nat.min_eq_right h]
      apply Nat.le_antisymm (roundUnits_le _ _)
      exact le_roundUnits (Nat.two_pow_pos _) (le_refl _)
        (Nat.mul_le_mul_right _ (magUnits_le_iff.mpr h))

theorem fmul_two_exact {x : F32} (h : magOf x < 0x7F000000) :
    fmul TWO x = ofParts (signOf x) (double (magOf x)) := by
  rw [fmul_two (by rw [isNaN_eq_false_iff]; omega), Nat.min_eq_left]
  unfold double
  split <;> omega

theorem double_lt {m : Nat} (h : m < 0x7F000000) : double m < 0x7F800000 := by
  unfold double
  split <;> omega

theorem isFinite_fmul_two {x : F32} (h : magOf x < 0x7F000000) : isFinite (fmul TWO x) = true := by
  have := double_lt h
  rw [fmul_two_exact h, isFinite_iff, magOf_ofParts _ _ (by omega)]
  exact this

theorem signedUnits_fmul_two {x : F32} (h : magOf x < 0x7F000000) :
    signedUnits (fmul TWO x) = 2 * signedUnits x := by
  have := double_lt h
  rw [fmul_two_exact h, signedUnits_ofParts _ _ (by omega), magUnits_double, signedUnits_eq]
  split
  · push_cast
    ring
  · push_cast
    ring

theorem signOf_fmul_two {x : F32} (hn : isNaN x = false) : signOf (fmul TWO x) = signOf x := by
  rw [fmul_two hn, signOf_ofParts _ _ (by omega)]

theorem isNaN_fmul_two {x : F32} (hn : isNaN x = false) : isNaN (fmul TWO x) = false := by
  rw [fmul_two hn]
  exact isNaN_ofParts (Nat.min_le_right _ _)

/-! ## The ramps' last steps -/

/-- `2y - 1` and `1 - 2y` stay in [-1, 1] for `y` in [0, 1]. -/
theorem inBipolar_twice_minus_one {y : F32} (h0 : fle ZERO y = true) (h1 : fle y ONE = true) :
    inBipolar (fsub (fmul TWO y) ONE) := by
  obtain ⟨hm, ha, hb⟩ := between_zero_one h0 h1
  have hlt : magOf y < 0x7F000000 := by omega
  refine ⟨le_fsub (isFinite_fmul_two hlt) isFinite_ONE (by decide) ?_,
    fsub_le (isFinite_fmul_two hlt) isFinite_ONE (by decide) ?_⟩
  · rw [signedUnits_MINUS_ONE, signedUnits_fmul_two hlt, signedUnits_ONE]
    omega
  · rw [signedUnits_fmul_two hlt, signedUnits_ONE]
    omega

theorem inBipolar_one_minus_twice {y : F32} (h0 : fle ZERO y = true) (h1 : fle y ONE = true) :
    inBipolar (fsub ONE (fmul TWO y)) := by
  obtain ⟨hm, ha, hb⟩ := between_zero_one h0 h1
  have hlt : magOf y < 0x7F000000 := by omega
  refine ⟨le_fsub isFinite_ONE (isFinite_fmul_two hlt) (by decide) ?_,
    fsub_le isFinite_ONE (isFinite_fmul_two hlt) (by decide) ?_⟩
  · rw [signedUnits_MINUS_ONE, signedUnits_fmul_two hlt, signedUnits_ONE]
    omega
  · rw [signedUnits_fmul_two hlt, signedUnits_ONE]
    omega

/-! ## The power's arguments (R121) -/

/-- One minus a value of the unit interval is one. -/
theorem inUnit_fsub_one {x : F32} (h : inUnit x) : inUnit (fsub ONE x) := by
  have hx := (inUnit_iff x).mp h
  obtain ⟨hm, ha, hb⟩ := between_zero_one (inUnit_zero_le h) h.2
  have hf := isFinite_of_mag_le_one hm
  refine ⟨signOf_fsub_nonneg isFinite_ONE hf ?_ (by simp [show signOf ONE = false from by decide]),
    fsub_le isFinite_ONE hf (by decide) ?_⟩
  · rw [signedUnits_ONE]
    exact hb
  · rw [signedUnits_ONE]
    omega

/-- One plus a value that is no NaN and not negative is at least one. -/
theorem powExp_one_add {y : F32} (hn : isNaN y = false) (hs : signOf y = false) :
    powExp (fadd ONE y) = true := by
  unfold powExp fge
  by_cases hi : isInf y = true
  · have hm := (isInf_iff y).mp hi
    have hy : y = INF := by rw [eq_of_sign_mag hs hm]; decide
    subst hy
    decide
  · rw [Bool.not_eq_true] at hi
    have hf := isFinite_of_not hn hi
    refine le_fadd isFinite_ONE hf (by decide) ?_
    have := signedUnits_nonneg hs
    omega

theorem isNaN_fmul_four {s : F32} (hn : isNaN s = false) : isNaN (fmul FOUR s) = false := by
  by_cases hi : isInf s = true
  · have hm := (isInf_iff s).mp hi
    have h4 : isZero s = false := by
      rw [← Bool.not_eq_true, isZero_iff]
      omega
    unfold fmul
    have h1 : isNaN FOUR = false := by decide
    have h3 : isZero FOUR = false := by decide
    simp only [h1, h3, h4, hn, hi, Bool.or_false, Bool.or_true, Bool.false_eq_true, if_false, if_true]
    exact isNaN_ofParts (le_refl _)
  · rw [Bool.not_eq_true] at hi
    exact isNaN_fmul_finite (by decide) (isFinite_of_not hn hi)

theorem signOf_fmul_four {s : F32} (hn : isNaN s = false) : signOf (fmul FOUR s) = signOf s := by
  have hs : (signOf FOUR != signOf s) = signOf s := by
    rw [show signOf FOUR = false from by decide]
    cases signOf s <;> rfl
  by_cases hi : isInf s = true
  · have hm := (isInf_iff s).mp hi
    have h4 : isZero s = false := by
      rw [← Bool.not_eq_true, isZero_iff]
      omega
    unfold fmul
    have h1 : isNaN FOUR = false := by decide
    have h3 : isZero FOUR = false := by decide
    simp only [h1, h3, h4, hn, hi, Bool.or_false, Bool.or_true, Bool.false_eq_true, if_false, if_true]
    rw [signOf_ofParts _ _ (by decide), hs]
  · rw [Bool.not_eq_true] at hi
    rw [fmul_finite (by decide) (isFinite_of_not hn hi), signOf_ofParts _ _ (roundUnits_lt_sign _ _), hs]

theorem signOf_of_fgt_zero {s : F32} (h : fgt s ZERO = true) : signOf s = false ∧ isNaN s = false := by
  rw [fgt_iff, orderKey_ZERO] at h
  refine ⟨?_, h.2.1⟩
  have h2 := h.2.2
  unfold orderKey at h2
  by_contra hc
  rw [Bool.not_eq_false] at hc
  rw [hc] at h2
  simp only [if_true] at h2
  omega

theorem signOf_of_flt_zero {s : F32} (h : flt s ZERO = true) : signOf s = true ∧ isNaN s = false := by
  rw [flt_iff, orderKey_ZERO] at h
  refine ⟨?_, h.1⟩
  have h2 := h.2.2
  unfold orderKey at h2
  by_contra hc
  rw [Bool.not_eq_true] at hc
  rw [hc] at h2
  simp only [Bool.false_eq_true, if_false] at h2
  omega

/-- The exponent for a positive shape. -/
theorem powExp_convex {s : F32} (h : fgt s ZERO = true) : powExp (fadd ONE (fmul FOUR s)) = true := by
  obtain ⟨hs, hn⟩ := signOf_of_fgt_zero h
  exact powExp_one_add (isNaN_fmul_four hn) (by rw [signOf_fmul_four hn, hs])

/-- The exponent for a negative shape. -/
theorem powExp_concave {s : F32} (h : flt s ZERO = true) : powExp (fsub ONE (fmul FOUR s)) = true := by
  obtain ⟨hs, hn⟩ := signOf_of_flt_zero h
  exact powExp_one_add (by rw [isNaN_fneg, isNaN_fmul_four hn])
    (by rw [signOf_fneg, signOf_fmul_four hn, hs]; rfl)

/-- A shape that is no NaN is zero, positive or negative. -/
theorem shape_cases {s : F32} (hn : isNaN s = false) :
    feq s ZERO = true ∨ (feq s ZERO = false ∧ fgt s ZERO = true) ∨
    (feq s ZERO = false ∧ fgt s ZERO = false ∧ flt s ZERO = true) := by
  have h0 : isNaN ZERO = false := by decide
  rcases Int.lt_trichotomy (orderKey s) (orderKey ZERO) with h | h | h
  · right; right
    refine ⟨?_, ?_, ?_⟩
    · rw [← Bool.not_eq_true, feq_iff]
      omega
    · rw [← Bool.not_eq_true, fgt_iff]
      omega
    · rw [flt_iff]
      exact ⟨hn, h0, h⟩
  · left
    rw [feq_iff]
    exact ⟨hn, h0, h⟩
  · right; left
    refine ⟨?_, ?_⟩
    · rw [← Bool.not_eq_true, feq_iff]
      omega
    · rw [fgt_iff]
      exact ⟨h0, hn, h⟩

theorem shapeCurve_neutral {x s : F32} (h : feq s ZERO = true) : shapeCurve x s = x := by
  simp [shapeCurve, h]

theorem shapeCurve_convex {x s : F32} (h : feq s ZERO = false) (h' : fgt s ZERO = true) :
    shapeCurve x s = powF32 x (fadd ONE (fmul FOUR s)) := by
  simp [shapeCurve, h, h']

theorem shapeCurve_concave {x s : F32} (h : feq s ZERO = false) (h' : fgt s ZERO = false) :
    shapeCurve x s = fsub ONE (powF32 (fsub ONE x) (fsub ONE (fmul FOUR s))) := by
  simp [shapeCurve, h, h']

/-- One minus a value of [0, 1], `-0.0` among them, is in [0, 1]. -/
theorem fsub_one_between {y : F32} (h0 : fle ZERO y = true) (h1 : fle y ONE = true) :
    fle ZERO (fsub ONE y) = true ∧ fle (fsub ONE y) ONE = true := by
  obtain ⟨hm, ha, hb⟩ := between_zero_one h0 h1
  have hf := isFinite_of_mag_le_one hm
  refine ⟨le_fsub isFinite_ONE hf (by decide) ?_, fsub_le isFinite_ONE hf (by decide) ?_⟩
  · rw [signedUnits_ZERO, signedUnits_ONE]
    omega
  · rw [signedUnits_ONE]
    omega

end Sys2Proof.Machine
end

