-- ==== Sys2Proof/Tests/Slice0.lean ====
section
/-! SUPPORT. The model's own tests. Every expected value is the spec's: words from 30_encoding.md rule
R101 and 95_test_vectors.md, results from the vectors of 95_test_vectors.md, each test citing its
vector. The last part shows, for each statement with hypotheses, that they can be met. -/

namespace Sys2Proof.Tests

/- One theorem after another: the package as one text runs out of threads otherwise. -/
set_option Elab.async false

open Sys2Proof Sys2Proof.Machine

/-- The block after reset with the default parameters. -/
def osc0 : Osc := State.reset.osc

/-- One step of a block with `w` issued. -/
def run1 (w : Word) (o : Osc) : Host.Outcome State Fault Refusal :=
  step { osc := o, pending := [w], resp := none }

/-- The step gives the block `o'` and the response `r`, and takes the word off the list. -/
def gives (out : Host.Outcome State Fault Refusal) (o' : Osc) (r : Resp) : Bool :=
  match out with
  | .next t => decide (t = { osc := o', pending := [], resp := some r })
  | .fault _ => false
  | .refused _ => false

/-! ## Well-formedness -/

theorem test_wellFormed_read_14 : (Instr.read 14#4).wellFormed = true := by decide
theorem test_wellFormed_refuses_read_15 : (Instr.read 15#4).wellFormed = false := by decide

/-! ## Decoding: words written out from R90-R92 as OP, RES, DATA -/

theorem test_decode_nop : decode (0x00#8 ++ 0x000000#24 ++ 0x00000000#32) = .ok .nop := by decide
theorem test_decode_setFreq : decode (0x01#8 ++ 0x000000#24 ++ 0xFFFFFFFF#32) =
    .ok (.setFreq 0xFFFFFFFF#32) := by decide
theorem test_decode_setWave : decode (0x02#8 ++ 0x000000#24 ++ 0x80000001#32) =
    .ok (.setWave 0x80000001#32) := by decide
theorem test_decode_setOffset : decode (0x03#8 ++ 0x000000#24 ++ 0x3E800000#32) =
    .ok (.setOffset 0x3E800000#32) := by decide
theorem test_decode_setDepth : decode (0x04#8 ++ 0x000000#24 ++ 0xBF800000#32) =
    .ok (.setDepth 0xBF800000#32) := by decide
theorem test_decode_setShape : decode (0x05#8 ++ 0x000000#24 ++ 0x40400000#32) =
    .ok (.setShape 0x40400000#32) := by decide
theorem test_decode_setPw : decode (0x06#8 ++ 0x000000#24 ++ 0x3C23D70A#32) =
    .ok (.setPw 0x3C23D70A#32) := by decide
theorem test_decode_setSmooth : decode (0x07#8 ++ 0x000000#24 ++ 0x3F7D70A4#32) =
    .ok (.setSmooth 0x3F7D70A4#32) := by decide
theorem test_decode_setSr : decode (0x08#8 ++ 0x000000#24 ++ 0x473B8000#32) =
    .ok (.setSr 0x473B8000#32) := by decide
theorem test_decode_resetPhase : decode (0x09#8 ++ 0x000000#24 ++ 0x00000000#32) =
    .ok .resetPhase := by decide
theorem test_decode_tick : decode (0x0A#8 ++ 0x000000#24 ++ 0x00000000#32) = .ok .tick := by decide
theorem test_decode_read : decode (0x0B#8 ++ 0x000000#24 ++ 0x0000000E#32) =
    .ok (.read 14#4) := by decide

/-- V-IL1 to V-IL9. -/
theorem test_decode_illegal :
    decode 0x0B0000000000000F#64 = .error .noSuchRegister ∧
    decode 0x0B00000000000010#64 = .error .registerHighBits ∧
    decode 0x0C00000000000000#64 = .error .reservedOpcode ∧
    decode 0xFF00000000000000#64 = .error .reservedOpcode ∧
    decode 0x0A00000100000000#64 = .error .reservedBits ∧
    decode 0x0A00000000000001#64 = .error .operandNotZero ∧
    decode 0x0000000000000001#64 = .error .operandNotZero ∧
    decode 0x0900000000000001#64 = .error .operandNotZero ∧
    decode 0x010000017F800000#64 = .error .reservedBits := by decide

/-- R71: the bytes of `SET_FREQ 1.0`, least significant first. -/
theorem test_bytes_setFreq :
    bytesOfWord 0x010000003F800000#64 =
      [0x00#8, 0x00#8, 0x80#8, 0x3F#8, 0x00#8, 0x00#8, 0x00#8, 0x01#8] ∧
    decodeTableWord 64 0x010000003F800000 = some (.setFreq 0x3F800000#32) := by decide

/-- R99, R100: text and words. -/
theorem test_assemble :
    assemble [.command "SET_SR" (some (.decimal false 100 10)),
      .command "SET_OFFSET" (some (.decimal true 25 100)),
      .command "SET_WAVE" (some (.name "randomhold")),
      .command "READ" (some (.name "status")), .word 0x0C00000000000000#64, .render 2] =
    some [0x0800000041200000#64, 0x03000000BE800000#64, 0x0200000000000005#64,
      0x0B0000000000000E#64, 0x0C00000000000000#64, 0x0A00000000000000#64,
      0x0A00000000000000#64] := by decide +kernel

/-! ## One step of each command -/

/-- V-NOP1. -/
theorem test_nop : gives (run1 0x0000000000000000#64 osc0) osc0 Resp.empty = true := by
  decide +kernel

/-- V-F2, a negative frequency, at sample rate 10. -/
theorem test_setFreq_negative :
    gives (run1 0x01000000C0400000#64 { osc0 with sr := 0x41200000#32 })
      { osc0 with sr := 0x41200000#32, freq := 0x00000000#32, pinc := 0x00000000#32 }
      Resp.empty = true := by decide +kernel

/-- V-F9, an increment above one, at sample rate 10. -/
theorem test_setFreq_440 :
    gives (run1 0x0100000043DC0000#64 { osc0 with sr := 0x41200000#32 })
      { osc0 with sr := 0x41200000#32, freq := 0x43DC0000#32, pinc := 0x42300000#32 }
      Resp.empty = true := by decide +kernel

/-- V-WV2. -/
theorem test_setWave_5 : gives (run1 0x0200000000000005#64 { osc0 with wave := .square })
    { osc0 with wave := .randomHold } Resp.empty = true := by decide +kernel

/-- V-WV3. -/
theorem test_setWave_6 : gives (run1 0x0200000000000006#64 { osc0 with wave := .square })
    { osc0 with wave := .square } Resp.empty = true := by decide +kernel

/-- V-O2: an infinite offset is stored. -/
theorem test_setOffset_minus_inf : gives (run1 0x03000000FF800000#64 osc0)
    { osc0 with offset := 0xFF800000#32 } Resp.empty = true := by decide +kernel

/-- V-O3. -/
theorem test_setOffset_nan : gives (run1 0x030000007FC00000#64 osc0) osc0 Resp.empty = true := by
  decide +kernel

/-- V-D1. -/
theorem test_setDepth_minus_one : gives (run1 0x04000000BF800000#64 osc0)
    { osc0 with depth := 0xBF800000#32 } Resp.empty = true := by decide +kernel

/-- V-S2: the shape is not clamped. -/
theorem test_setShape_3 : gives (run1 0x0500000040400000#64 osc0)
    { osc0 with shape := 0x40400000#32 } Resp.empty = true := by decide +kernel

/-- V-PW3. -/
theorem test_setPw_neg_zero : gives (run1 0x0600000080000000#64 osc0)
    { osc0 with pw := 0x3C23D70A#32 } Resp.empty = true := by decide +kernel

/-- V-PW5. -/
theorem test_setPw_inf : gives (run1 0x060000007F800000#64 osc0)
    { osc0 with pw := 0x3F7D70A4#32 } Resp.empty = true := by decide +kernel

/-- V-SM9. -/
theorem test_setSmooth_099 : gives (run1 0x070000003F7D70A4#64 osc0)
    { osc0 with scoef := 0x3C23D700#32 } Resp.empty = true := by decide +kernel

/-- V-SM8. -/
theorem test_setSmooth_neg_zero : gives (run1 0x0700000080000000#64 { osc0 with scoef := HALF })
    { osc0 with scoef := 0x3F800000#32 } Resp.empty = true := by decide +kernel

/-- V-SR2. -/
theorem test_setSr_48000 : gives (run1 0x08000000473B8000#64 osc0)
    { osc0 with sr := 0x473B8000#32, pinc := 0x37AEC33E#32 } Resp.empty = true := by
  decide +kernel

/-- V-SR6. -/
theorem test_setSr_inf : gives (run1 0x080000007F800000#64 osc0) osc0 Resp.empty = true := by
  decide +kernel

/-- V-RP1. -/
theorem test_resetPhase : gives (run1 0x0900000000000000#64 { osc0 with phase := 0x3E99999A#32 })
    { osc0 with phase := 0x00000000#32 } { sample := none, wrap := true, rdata := none } = true := by
  decide +kernel

/-- V-RD3: the reset increment. -/
theorem test_read_pinc : gives (run1 0x0B00000000000009#64 osc0) osc0
    { sample := none, wrap := false, rdata := some 0x37BE37C6#32 } = true := by decide +kernel

/-- P5, command 2: STATUS with ERR. -/
theorem test_read_status : gives (run1 0x0B0000000000000E#64 { osc0 with err := true })
    { osc0 with err := true } { sample := none, wrap := false, rdata := some 0x00000003#32 } = true := by
  decide +kernel

/-- V-IL6: no tick happens. -/
theorem test_illegal_tick : gives (run1 0x0A00000000000001#64 osc0) { osc0 with err := true }
    Resp.empty = true := by decide +kernel

/-- Two wraps: W1, tick 9, the square; P3, command 6, whose sample is the OLD held value and whose wrap
draws the next. -/
theorem test_tick_wraps :
    gives (run1 0x0A00000000000000#64
      { osc0 with wave := .square, phase := 0x3F666668#32, pinc := 0x3DCCCCCD#32 })
      { osc0 with wave := .square, phase := 0x34000000#32, pinc := 0x3DCCCCCD#32,
                  smoothed := 0xBF800000#32 }
      { sample := some 0xBF800000#32, wrap := true, rdata := none } = true ∧
    gives (run1 0x0A00000000000000#64
      { osc0 with wave := .randomHold, phase := 0x3F400000#32, pinc := 0x3E800000#32 })
      { osc0 with wave := .randomHold, phase := 0x00000000#32, pinc := 0x3E800000#32,
                  prbs := 0x80200003#32, held := 0x3A800000#32 }
      { sample := some 0x00000000#32, wrap := true, rdata := none } = true := by decide +kernel

/-- V-TK3: Idle at `-0.0`. -/
theorem test_tick_idle_neg_zero :
    gives (run1 0x0A00000000000000#64
      { osc0 with freq := 0x80000000#32, idle := 0x3E800000#32, phase := 0x3E99999A#32 })
      { osc0 with freq := 0x80000000#32, idle := 0x3E800000#32, phase := 0x00000000#32 }
      { sample := some 0x3E800000#32, wrap := false, rdata := none } = true := by decide +kernel

/-- V-TK4, the second TICK, with what R16 says of an infinite argument: it holds for every sine. -/
theorem test_sine_at_infinite_phase : sineWave INF = QNAN := by
  have h : fmul TWO_PI INF = INF := by decide
  rw [sineWave, Config.sinF32, h]
  exact Config.sin.not_finite INF (by decide)

/-- V-SIN1. -/
theorem test_sine_at_zero : sineWave ZERO = ZERO := by
  have h : fmul TWO_PI ZERO = ZERO := by decide
  rw [sineWave, Config.sinF32, h]
  exact Config.sin.at_zero

/-- V-SH9, V-SH10 and V-SH13: the laws of R17 at a positive shape. -/
theorem test_shape_laws :
    shapeCurve ZERO 0x3E800000#32 = ZERO ∧ shapeCurve ONE 0x3E800000#32 = ONE ∧
    shapeCurve HALF 0x30000000#32 = HALF := by
  have h1 : fadd ONE (fmul FOUR 0x30000000#32) = ONE := by decide +kernel
  refine ⟨?_, ?_, ?_⟩
  · rw [shapeCurve, if_neg (by decide), if_pos (by decide)]
    exact Config.pow.base_zero _ (by decide +kernel)
  · rw [shapeCurve, if_neg (by decide), if_pos (by decide)]
    exact Config.pow.base_one _ (by decide +kernel)
  · rw [shapeCurve, if_neg (by decide), if_pos (by decide), h1]
    exact Config.pow.exponent_one _ (by decide)

/-! ## The units -/

/-- V-ADV2, V-ADV3, V-ADV6, V-ADV8 and V-ADV10; and, from C3 of 90_conflicts.md, a phase of 9 at a zero
increment. -/
theorem test_advance :
    advance { osc0 with phase := 0x3F666668#32, pinc := 0x3DCCCCCD#32 } =
      ({ osc0 with phase := 0x34000000#32, pinc := 0x3DCCCCCD#32 }, true) ∧
    advance { osc0 with phase := 0x3F7FFFFF#32, pinc := 0x33000000#32 } =
      ({ osc0 with phase := 0x00000000#32, pinc := 0x33000000#32 }, true) ∧
    advance { osc0 with phase := 0x3F000000#32, pinc := 0x3FC00000#32 } =
      ({ osc0 with phase := 0x3F800000#32, pinc := 0x3FC00000#32 }, true) ∧
    advance { osc0 with phase := 0x3E800000#32, pinc := 0x7F800000#32 } =
      ({ osc0 with phase := 0x7F800000#32, pinc := 0x7F800000#32 }, true) ∧
    advance { osc0 with phase := 0x3E99999A#32, pinc := 0x00000000#32 } =
      ({ osc0 with phase := 0x3E99999A#32, pinc := 0x00000000#32 }, false) ∧
    advance { osc0 with phase := 0x41100000#32, pinc := 0x00000000#32 } =
      ({ osc0 with phase := 0x41100000#32, pinc := 0x00000000#32 }, false) := by decide +kernel

/-- V-PR3, V-PR7 and the extremes. -/
theorem test_prbs :
    lfsrStep 0xC0300002#32 = 0x60180001#32 ∧ prbsValue 0x60180001#32 = 0xBE7F4000#32 ∧
    lfsrStep 0xACE1ACE1#32 = 0xD650D673#32 ∧ prbsValue 0xD650D673#32 = 0x3F2CA1AC#32 ∧
    prbsValue 0xFFFFFFFF#32 = 0x3F7FFFFE#32 ∧ prbsValue 0x000000FF#32 = 0xBF800000#32 ∧
    prbsValue 0x80000000#32 = 0x00000000#32 := by decide +kernel

/-- V-SC3 (two roundings), V-SC5, V-SC6 and V-SC7. -/
theorem test_scale :
    scale { osc0 with depth := 0x3E99999A#32, offset := 0x3DCCCCCD#32 } 0x3F3504F3#32 =
      0x3E9FCFC5#32 ∧
    scale { osc0 with depth := 0x7F800000#32, offset := 0xFF800000#32 } ONE = 0x7FC00000#32 ∧
    scale { osc0 with depth := 0x7F7FFFFF#32, offset := 0x7F7FFFFF#32 } ONE = 0x7F800000#32 ∧
    scale { osc0 with offset := 0x80000000#32 } 0x80000000#32 = 0x80000000#32 := by decide +kernel

/-- V-FI1, V-FI8, V-FI9, V-FI13, V-FI14 and V-FI15. -/
theorem test_filter :
    filterValue { osc0 with smoothed := 0x3DCCCCCD#32 } 0x314E288F#32 = 0x314E288F#32 ∧
    filterValue { osc0 with smoothed := 0x80000000#32, scoef := ZERO } ONE = 0x00000000#32 ∧
    filterValue { osc0 with smoothed := 0x80000000#32, scoef := ZERO } MINUS_ONE =
      0x80000000#32 ∧
    filterValue { osc0 with smoothed := 0x7F800000#32, scoef := HALF } ONE = 0x7FC00000#32 ∧
    filterValue { osc0 with smoothed := ONE, scoef := 0x33800000#32 } ZERO = 0x3F7FFFFF#32 ∧
    filterValue { osc0 with smoothed := ONE, scoef := 0x3F400000#32 } 0x3F800001#32 =
      0x3F800001#32 := by decide +kernel

/-- V-F8: an increment that underflows; V-SR8: one that overflows. -/
theorem test_fdiv_range :
    fdiv 0x00000001#32 0x41200000#32 = 0x00000000#32 ∧
    fdiv 0x3F800000#32 0x00000001#32 = 0x7F800000#32 := by decide +kernel

/-- V-RS5, V-RS4, V-RS7 and V-RS8. -/
theorem test_reset_parameters :
    (Osc.resetWith { Config.Params.default with initFreq := some 0x40000000#32 }).pinc =
      0x383E37C6#32 ∧
    (Osc.resetWith { Config.Params.default with initFreq := some 0x7FC00000#32 }).freq =
      0x3F800000#32 ∧
    (Osc.resetWith { Config.Params.default with idleLevelInit := some 0x7FC00000#32 }).idle =
      0x00000000#32 ∧
    (Osc.resetWith { Config.Params.default with prbsSeed := 0#32 }).prbs = 0x00000001#32 := by
  decide +kernel

/-! ## Witnesses: the hypotheses of each statement can be met -/

/-- A state with the words `ws` to come. -/
def withWords (o : Osc) (ws : List Word) : State := { osc := o, pending := ws, resp := none }

/-- A Running block whose next TICK wraps. -/
def wrapping : Osc := { osc0 with wave := .square, phase := 0x3F7FFFFF#32, pinc := HALF }

/-- Where `run1 w o` arrives, for a word whose effect does not use the sine or the power. -/
theorem run1_of_gives {w : Word} {o o' : Osc} {r : Resp} (h : gives (run1 w o) o' r = true) :
    step (withWords o [w]) = .next { osc := o', pending := [], resp := some r } := by
  unfold gives run1 at h
  unfold withWords
  split at h
  · rename_i t ht
    rw [ht]
    exact congrArg _ (of_decide_eq_true h)
  · exact absurd h (by decide)
  · exact absurd h (by decide)

theorem witness_DecodeOfEncodeIsTheCommand :
    (Instr.setFreq 0xFFFFFFFF#32).wellFormed = true ∧ (Instr.read 14#4).wellFormed = true := by
  decide

theorem witness_EncodeOfDecodeIsTheWord :
    decode 0x0B0000000000000E#64 = .ok (.read 14#4) := by decide

theorem witness_IllegalWordsAreTheFiveCases :
    (withWords osc0 [0x0B0000000000000F#64]).pending = [0x0B0000000000000F#64] ∧
    decode 0x0B0000000000000F#64 = .error .noSuchRegister ∧
    decode 0x0BFFFFFFFFFFFFFF#64 = .error .reservedBits := by decide

theorem witness_LegalWordsFitTheOpcodeTable :
    ∃ r1 ∈ opcodeTable, r1.mnemonic = "READ" ∧ r1.fits 0x0B0000000000000E#64 = true ∧
      decode 0x0B0000000000000E#64 = .ok (.read 14#4) :=
  ⟨⟨"READ", 0x0B00000000000000#64, 0xFFFFFFFFFFFFFFF0#64⟩, by decide⟩

theorem witness_ByteTransportIsLittleEndian :
    7 < 8 ∧ 3 < 4 ∧ (List.replicate 7 0x00#8).length < 8 := by decide

theorem witness_StepRunsTheDecodedCommand :
    (withWords osc0 [tickWord, 0#64]).pending = tickWord :: [0#64] ∧
    decode tickWord = .ok .tick := by decide

theorem witness_StepWithoutCommandChangesNothing : State.reset.pending = [] := by decide

theorem witness_IllegalCommandSetsStickyErr :
    ∃ s t : State, step s = .next t ∧ s.osc.err = true :=
  ⟨_, _, run1_of_gives test_read_status, rfl⟩

theorem witness_EveryCommandGivesOneResponse :
    (∃ s t : State, step s = .next t ∧ issued s = some .tick) ∧
    (∃ s t : State, step s = .next t ∧ issued s = some (.read 14#4)) ∧
    (∃ s t : State, step s = .next t ∧ issuesIllegal s) :=
  ⟨⟨_, _, run1_of_gives test_tick_wraps.1, by decide⟩,
   ⟨_, _, run1_of_gives test_read_status, by decide⟩,
   ⟨_, _, run1_of_gives test_illegal_tick, _, _, .operandNotZero, rfl, by decide⟩⟩

theorem witness_WrapEventHasTwoSources :
    (∃ s t : State, step s = .next t ∧ issued s = some .resetPhase ∧
      t.resp = some { sample := none, wrap := true, rdata := none }) ∧
    (∃ s t : State, step s = .next t ∧ issued s = some .tick ∧
      t.resp = some { sample := some 0xBF800000#32, wrap := true, rdata := none }) ∧
    (∃ s t : State, step s = .next t ∧ issued s = some .tick ∧
      t.resp = some { sample := some 0x3E800000#32, wrap := false, rdata := none }) :=
  ⟨⟨_, _, run1_of_gives test_resetPhase, by decide, rfl⟩,
   ⟨_, _, run1_of_gives test_tick_wraps.1, by decide, rfl⟩,
   ⟨_, _, run1_of_gives test_tick_idle_neg_zero, by decide, rfl⟩⟩

theorem witness_StepDependsOnBlockStateOnly :
    ∃ s s' : State, s ≠ s' ∧ s.osc = s'.osc ∧ s.pending = [0#64] ∧ s'.pending = 0#64 :: [tickWord] ∧
      (∃ t, step s = .next t) ∧ (∃ t', step s' = .next t') :=
  ⟨withWords osc0 [0#64], withWords osc0 [0#64, tickWord], by decide, rfl, rfl, rfl,
   ⟨_, rfl⟩, ⟨_, rfl⟩⟩

theorem witness_SetFreqWritesFrequencyAndIncrement :
    isNaN 0x7F800001#32 = true ∧ flt 0x80000001#32 ZERO = true ∧
    (isNaN NEG_ZERO = false ∧ flt NEG_ZERO ZERO = false) ∧
    (isNaN INF = false ∧ flt INF ZERO = false) := by decide

theorem witness_SetWaveSelectsByIndex :
    0#32 = waveIndex .sine ∧ 5#32 = waveIndex .randomHold ∧ 5 < (6#32).toNat ∧
    5 < (0xFFFFFFFF#32).toNat := by decide

theorem witness_SetOffsetDepthShapeStoreTheOperand :
    isNaN 0xFFC00001#32 = true ∧ isNaN 0x7F800001#32 = true ∧ isNaN INF = false ∧
    isNaN 0xFF800000#32 = false := by decide

theorem witness_SetPwClamps :
    isNaN QNAN = true ∧ flt 0x3C23D709#32 0x3C23D70A#32 = true ∧
    fgt 0x3F7D70A5#32 0x3F7D70A4#32 = true ∧
    (fle 0x3C23D70A#32 PW_MIN = true ∧ fle PW_MIN 0x3F7D70A4#32 = true) ∧
    (fle 0x3C23D70A#32 PW_MAX = true ∧ fle PW_MAX 0x3F7D70A4#32 = true) := by decide

theorem witness_SetSmoothStoresOneMinusOperand :
    isNaN QNAN = true ∧ fle NEG_ZERO ZERO = true ∧ fle ZERO ZERO = true ∧ fge ONE ONE = true ∧
    (fgt 0x00000001#32 ZERO = true ∧ flt 0x00000001#32 ONE = true) ∧
    (fgt 0x3F7FFFFF#32 ZERO = true ∧ flt 0x3F7FFFFF#32 ONE = true) := by decide

theorem witness_SetSrAcceptsFinitePositive :
    isNaN QNAN = true ∧ isInf INF = true ∧ fgt NEG_ZERO ZERO = false ∧
    (isFinite 0x00000001#32 = true ∧ fgt 0x00000001#32 ZERO = true) ∧
    (isFinite 0x7F7FFFFF#32 = true ∧ fgt 0x7F7FFFFF#32 ZERO = true) := by decide

theorem witness_SetFreqCornerIncrements :
    isFinite State.reset.osc.sr = true ∧ fgt State.reset.osc.sr ZERO = true ∧
    flt 0xFF800000#32 ZERO = true ∧ flt 0x80000001#32 ZERO = true := by decide

theorem witness_CommandsButTickAreIdempotent :
    ((14#4 : RegNum) ≠ 15#4 ∧ Instr.setFreq ONE ≠ .tick) ∧
    (∃ t u, exec .nop State.reset = .next t ∧ exec .nop t = .next u) ∧
    (∃ t, exec (.read 14#4) State.reset = .next t) ∧
    (∃ t u, exec .resetPhase State.reset = .next t ∧ exec .resetPhase t = .next u) ∧
    (decode 0x0C00000000000000#64 = .error .reservedOpcode ∧
      ∃ t u, transact 0x0C00000000000000#64 State.reset = .next t ∧
        transact 0x0C00000000000000#64 t = .next u) :=
  ⟨by decide, ⟨_, _, rfl, rfl⟩, ⟨_, rfl⟩, ⟨_, _, rfl, rfl⟩, by decide, _, _, rfl, rfl⟩

theorem witness_NopDoesNothing : (0x80000000#32 : BitVec 32) ≠ 0#32 := by decide

theorem witness_ReadReturnsTheRegister :
    ((14#4 : RegNum) ≠ 15#4 ∧ (0#4 : RegNum) ≠ 15#4) ∧
    status osc0 = 0#30 ++ BitVec.ofBool osc0.err ++ BitVec.ofBool (!fle osc0.freq ZERO) ∧
    exec (.read 0#4) (withWords osc0 []) =
      .next { osc := osc0, pending := [],
              resp := some { sample := none, wrap := false, rdata := some 0x3F800000#32 } } ∧
    exec (.read 15#4) (withWords osc0 []) =
      .next { osc := { osc0 with err := true }, pending := [],
              resp := some { sample := none, wrap := false, rdata := none } } :=
  ⟨by decide, by decide, rfl, rfl⟩

theorem witness_OnlySetFreqMovesTheControlState :
    (∃ s t : State, step s = .next t ∧ isIdle t.osc ≠ isIdle s.osc) ∧
    fgt 0x00000001#32 ZERO = true ∧ fgt INF ZERO = true :=
  ⟨⟨_, _, run1_of_gives test_setFreq_negative, by decide⟩, by decide, by decide⟩

theorem witness_TickRunsStepsInOrder :
    fle NEG_ZERO ZERO = true ∧ fle State.reset.osc.freq ZERO = false ∧ fle 0x00000001#32 ZERO = false ∧
    fle INF ZERO = false := by decide

theorem witness_IdleLaw : fle (withWords { osc0 with freq := ZERO } []).osc.freq ZERO = true := by
  decide

theorem witness_HeldIsConstantBetweenWraps :
    ∃ s : State, s.osc.wave = .randomHold ∧ s.osc.freq = ONE ∧
      (observe (renderWords 2) s).1.length = 2 ∧
      ∀ r ∈ (observe (renderWords 2) s).1, r.wrap = false :=
  ⟨withWords { osc0 with wave := .randomHold } [], by decide +kernel⟩

theorem witness_ShapeCurveIdentityAndEndPoints :
    isNaN INF = false ∧ isNaN 0xFF800000#32 = false ∧
    (fgt 0x00000001#32 0x00000000#32 = true ∧ fgt INF 0x00000000#32 = true) ∧
    (flt 0x80000001#32 0x00000000#32 = true ∧ flt 0xFF800000#32 0x00000000#32 = true) := by decide

theorem witness_ShapeCurveStaysInDomain :
    (inUnit ZERO ∧ inUnit ONE) ∧ (isNaN INF = false ∧ fgt INF ZERO = true) ∧
    (isNaN 0x80000001#32 = false ∧ flt 0x80000001#32 ZERO = true) ∧
    (signOf INF = false ∧ isNaN INF = false ∧ flt (fmul TWO INF) ONE = false) ∧
    (signOf HALF = false ∧ isNaN HALF = false ∧ flt (fmul TWO HALF) ONE = false) := by
  decide +kernel

theorem witness_RampAndTriangleCorners :
    isNaN HALF = false ∧ fge ONE ONE = true ∧ fge INF ONE = true := by decide

theorem witness_RampDownNegatesRampUp :
    (signOf HALF = false ∧ isNaN HALF = false ∧ isNaN ZERO = false ∧
      isZero (rampUpWave HALF ZERO) = true) ∧
    (signOf ZERO = false ∧ isZero (rampUpWave ZERO ZERO) = false) := by decide +kernel

theorem witness_SquareTieBreak :
    flt 0x3EFFFFFF#32 HALF = true ∧ fge HALF HALF = true ∧ isNaN HALF = false := by decide

theorem witness_WaveformIsBipolarOrSineNaN :
    osc0.Legal ∧ Osc.Legal { osc0 with phase := INF, pinc := INF, freq := INF } := by
  decide +kernel

theorem witness_AdvanceKeepsPhaseBelowOne :
    (inHalfOpenUnit 0x3F7FFFFF#32 ∧ fle ZERO 0x3F7FFFFF#32 = true ∧ flt 0x3F7FFFFF#32 ONE = true) ∧
    (inHalfOpenUnit ZERO ∧ fle ZERO NEG_ZERO = true ∧ flt NEG_ZERO ONE = true) := by decide

theorem witness_WrapSubtractsExactlyOne :
    feq HALF ZERO = false ∧ (feq ZERO ZERO = true ∧ isFinite 0x41100000#32 = true) ∧
    (feq wrapping.pinc ZERO = false ∧ fge (fadd wrapping.phase wrapping.pinc) ONE = true ∧
      flt (fadd wrapping.phase wrapping.pinc) TWO = true) ∧
    (inHalfOpenUnit wrapping.phase ∧ fle ZERO wrapping.pinc = true ∧
      flt wrapping.pinc ONE = true) ∧
    (fge (fadd HALF HALF) ONE = true ∧ flt (fadd HALF HALF) TWO = true) := by decide +kernel

theorem witness_IncrementRangeAndInfinitePhase :
    (signOf ZERO = false ∧ isNaN ZERO = false) ∧ fle ZERO NEG_ZERO = true ∧
    fle ZERO INF = true ∧
    (isFinite 0x3F7FFFFF#32 = true ∧ isFinite ONE = true ∧ isFinite 0x41100000#32 = true) ∧
    osc0.Legal ∧
    Osc.Legal { osc0 with freq := NEG_ZERO, pinc := NEG_ZERO } := by decide +kernel

theorem witness_GeneratorIsNeverZero :
    (0x00000001#32 : U32) ≠ 0#32 ∧
    ∃ s t : State, step s = .next t ∧ s.osc.prbs ≠ 0#32 ∧ t.osc.prbs ≠ s.osc.prbs :=
  ⟨by decide, _, _, run1_of_gives test_tick_wraps.2, by decide, by decide⟩

theorem witness_DrawOnlyAtQualifyingWrap :
    (∃ s t : State, step s = .next t ∧ t.osc.prbs ≠ s.osc.prbs) ∧
    (∃ s t : State, step s = .next t ∧ t.osc.prbs = s.osc.prbs) :=
  ⟨⟨_, _, run1_of_gives test_tick_wraps.2, by decide⟩,
   ⟨_, _, run1_of_gives test_tick_wraps.1, by decide⟩⟩

theorem witness_ScalerCorners :
    (isZero NEG_ZERO = true ∧ isFinite ONE = true ∧ isNaN 0xC0000000#32 = false ∧
      isZero 0xC0000000#32 = false) ∧
    (isInf 0xFF800000#32 = true ∧ isZero NEG_ZERO = true) ∧ isNaN 0xFFC00001#32 = true ∧
    (isInf (fmul ONE INF) = true ∧ isInf 0xFF800000#32 = true ∧
      signOf (fmul ONE INF) ≠ signOf 0xFF800000#32) := by decide

theorem witness_SmootherIsTransparentAtOne :
    fle State.reset.osc.freq ZERO = false ∧ State.reset.osc.scoef = ONE := by decide

theorem witness_SmootherFreezesAtZero :
    (isFinite ONE = true ∧ isFinite (fsub ZERO ONE) = true ∧ ONE ≠ NEG_ZERO) ∧
    (isFinite NEG_ZERO = true ∧ isFinite (fsub ONE NEG_ZERO) = true) ∧
    isFinite (fsub INF ONE) = false ∧
    (isFinite INF = false ∧ isFinite (fsub INF INF) = false) ∧ isFinite QNAN = false := by
  decide +kernel

theorem witness_NonFiniteMemoryStays :
    (inUnit 0x3F7FFFFF#32 ∧ feq 0x3F7FFFFF#32 ONE = false) ∧
    (inUnit ZERO ∧ feq ZERO ONE = false) ∧ isFinite INF = false ∧ isFinite QNAN = false ∧
    isFinite ONE = true := by decide

theorem witness_ResetValues :
    (isNaN INF = false ∧ fgt INF ZERO = true) ∧ (isNaN QNAN = true ∨ fgt QNAN ZERO = false) ∧
    fgt NEG_ZERO ZERO = false ∧ isNaN 0xFF800000#32 = false ∧ Config.Params.default.prbsSeed ≠ 0#32 := by
  decide

theorem witness_ResetIsLegalAndRunning :
    Config.Params.default.wf = true ∧
    Config.Params.wf { Config.Params.default with
      initFreq := some INF, idleLevelInit := some QNAN, prbsSeed := 0#32 } = true := by decide

theorem witness_StepKeepsStateLegal :
    ∃ s t : State, s.Legal ∧ step s = .next t ∧ t ≠ s :=
  ⟨withWords osc0 [0#64], _, by decide +kernel, rfl, by decide⟩

theorem witness_RegistersAreWrittenOnlyByTheirCommands :
    (∃ s t : State, step s = .next t ∧ t.osc.freq ≠ s.osc.freq) ∧
    (∃ s t : State, step s = .next t ∧ t.osc.held ≠ s.osc.held) ∧
    (∃ s t : State, step s = .next t ∧ t.osc.smoothed ≠ s.osc.smoothed) ∧
    (∃ s t : State, step s = .next t ∧ t.osc.err ≠ s.osc.err) :=
  ⟨⟨_, _, run1_of_gives test_setFreq_440, by decide⟩,
   ⟨_, _, run1_of_gives test_tick_wraps.2, by decide⟩,
   ⟨_, _, run1_of_gives test_tick_wraps.1, by decide⟩,
   ⟨_, _, run1_of_gives test_illegal_tick, by decide⟩⟩

theorem witness_OperationsRoundToNearestEven :
    isFinite 0x7F7FFFFF#32 = true ∧ isFinite 0x80000001#32 = true ∧
    isZero 0x80000001#32 = false := by decide

theorem witness_OperationsOnInfinitiesAndZeros :
    (isInf INF = true ∧ isInf 0xFF800000#32 = true ∧ signOf INF ≠ signOf 0xFF800000#32) ∧
    (isFinite ZERO = true ∧ signedUnits ONE + signedUnits MINUS_ONE = 0) ∧
    (isZero NEG_ZERO = true ∧ isZero ONE = false ∧ isNaN INF = false ∧ isNaN NEG_ZERO = false) := by
  decide +kernel

theorem witness_NaNResultsAreCanonical :
    isNaN (fadd INF 0xFF800000#32) = true ∧ isNaN (fsub INF INF) = true ∧
    isNaN (fmul ZERO INF) = true ∧ isNaN (fdiv NEG_ZERO ZERO) = true ∧
    (Config.powBase ONE = true ∧ Config.powExp INF = true) := by decide +kernel

theorem witness_NaNResultsAreCanonical_sine : isNaN (Config.sinF32 INF) = true := by
  rw [Config.sinF32, Config.sin.not_finite INF (by decide)]
  decide

theorem witness_ComparisonsOrderValues :
    isFinite 0x7F7FFFFF#32 = true ∧ isFinite 0xFF7FFFFF#32 = true ∧ isNaN 0xFF800001#32 = true := by
  decide

theorem witness_ClampfClamps :
    (isNaN 0xFF800000#32 = false ∧ isNaN ZERO = false ∧ isNaN ONE = false ∧ fle ZERO ONE = true) ∧
    (flt 0xFF800000#32 ZERO = true ∧ fgt INF ONE = true) ∧
    (fle ZERO ONE = true ∧ fle ONE ONE = true) ∧ fle ZERO ZERO = true ∧
    (fge 0x3F7FFFFF#32 ZERO = true ∧ flt 0x3F7FFFFF#32 ONE = true) ∧ fge INF ONE = true := by decide

end Sys2Proof.Tests
end

section
/-! SUPPORT. Words, responses and runs: what a step that takes a word leaves, which commands respond
with a sample or a register value, and runs of the host's list. -/

namespace Sys2Proof.Machine

/-! ## Words and steps -/

theorem transact_of_ok {w : Word} {i : Instr} (h : decode w = .ok i) (s : State) :
    transact w s = exec i s := by simp [transact, h]

/-- A step that takes a word: the word's effect on `S`, its response, and the rest of the list. -/
theorem step_eq_wordEffect {s : State} {w : Word} {rest : List Word} (h : s.pending = w :: rest) :
    step s = .next
      { osc := (wordEffect w s.osc).1, pending := rest, resp := some (wordEffect w s.osc).2 } := by
  rw [step_cons h, transact_eq_finish]
  rfl

theorem issued_of_ok {s : State} {w : Word} {rest : List Word} {i : Instr}
    (hp : s.pending = w :: rest) (hd : decode w = .ok i) : issued s = some i := by
  simp [issued, hp, hd]

theorem issued_of_error {s : State} {w : Word} {rest : List Word} {e : Illegal}
    (hp : s.pending = w :: rest) (hd : decode w = .error e) : issued s = none := by
  simp [issued, hp, hd]

theorem not_issuesIllegal_of_ok {s : State} {w : Word} {rest : List Word} {i : Instr}
    (hp : s.pending = w :: rest) (hd : decode w = .ok i) : ¬ issuesIllegal s := by
  rintro ⟨w', rest', e, hp', he⟩
  obtain ⟨rfl, -⟩ := List.cons.inj (hp.symm.trans hp')
  rw [hd] at he
  cases he

theorem decodeNoOperand_ok {d : BitVec 32} {i j : Instr} (h : decodeNoOperand d i = .ok j) :
    j = i := by
  unfold decodeNoOperand at h
  split at h
  · exact (Except.ok.inj h).symm
  · cases h

/-- READ decodes to the register it names, which is not register 15 (R97). -/
theorem decodeRead_ok {d : BitVec 32} {i : Instr} (h : decodeRead d = .ok i) :
    i = .read (regField d) ∧ regField d ≠ 15#4 := by
  unfold decodeRead at h
  split at h
  · cases h
  · split at h
    · cases h
    · exact ⟨(Except.ok.inj h).symm, ‹_›⟩

/-- No word decodes to a READ of register 15 (R97). -/
theorem decode_read_ne {w : Word} {r : RegNum} (h : decode w = .ok (.read r)) : r ≠ 15#4 := by
  unfold decode at h
  split at h
  · cases h
  · split at h
    case h_1 => cases decodeNoOperand_ok h
    case h_10 => cases decodeNoOperand_ok h
    case h_11 => cases decodeNoOperand_ok h
    case h_12 =>
      obtain ⟨hi, hr⟩ := decodeRead_ok h
      rwa [Instr.read.inj hi]
    all_goals cases h

/-! ## Responses (R18) -/

theorem tickOsc_sample (o : Osc) : (tickOsc o).2.sample.isSome = true := by
  unfold tickOsc
  split <;> rfl

theorem tickOsc_rdata (o : Osc) : (tickOsc o).2.rdata = none := by
  unfold tickOsc
  split <;> rfl

/-- The response of a legal READ is the register's value alone. -/
theorem commandEffect_read_resp {r : RegNum} (hr : r ≠ 15#4) (o : Osc) :
    ∃ v, (commandEffect (.read r) o).2 = Resp.ofRead v := by
  obtain ⟨v, hv⟩ := readReg_isSome (o := o) hr
  exact ⟨v, by simp [commandEffect, hv]⟩

/-- A sample comes from TICK alone. -/
theorem commandEffect_sample_iff (i : Instr) (o : Osc) :
    (commandEffect i o).2.sample.isSome = true ↔ i = .tick := by
  cases i with
  | tick => simp [commandEffect, tickOsc_sample]
  | read r =>
    simp only [commandEffect]
    cases readReg o r <;> simp [Resp.empty, Resp.ofRead]
  | _ => simp [commandEffect, Resp.empty, Resp.ofWrap]

/-- A register value comes from READ alone, and from every READ of a register that exists. -/
theorem commandEffect_rdata_iff {i : Instr} (hi : ∀ r, i = .read r → r ≠ 15#4) (o : Osc) :
    (commandEffect i o).2.rdata.isSome = true ↔ ∃ r, i = .read r := by
  cases i with
  | tick => simp [commandEffect, tickOsc_rdata]
  | read r =>
    obtain ⟨v, hv⟩ := commandEffect_read_resp (hi r rfl) o
    simp [hv, Resp.ofRead]
  | _ => simp [commandEffect, Resp.empty, Resp.ofWrap]

/-! ## Runs (R19) -/

theorem run_succ_of_step {M : Host.Core} {s t : M.State} (h : M.step s = .next t) (k : Nat) :
    M.run (k + 1) s = M.run k t := by
  rw [Host.Core.run, h]

/-- A run whose host has a word to issue goes on from that word's effect. -/
theorem run_succ_cons (k : Nat) (w : Word) (ws : List Word) (s : State) :
    Host.Core.run Sys2Proof.core (k + 1) { s with pending := w :: ws } =
      Host.Core.run Sys2Proof.core k
        { s.finish (wordEffect w s.osc).1 (wordEffect w s.osc).2 with pending := ws } :=
  run_succ_of_step (step_eq_wordEffect (s := { s with pending := w :: ws }) rfl) k

/-- Running the whole list by steps ends in the observed state. -/
theorem run_eq_observe (ws : List Word) (s : State) :
    Host.Core.run Sys2Proof.core ws.length { s with pending := ws } =
      .next { (observe ws s).2 with pending := [] } := by
  induction ws generalizing s with
  | nil => rfl
  | cons w ws ih => rw [List.length_cons, run_succ_cons, ih, observe_cons]

end Sys2Proof.Machine
end

section
/-! SUPPORT. The binary32 operations on infinities and zeros, the free functions' NaNs, the comparisons
and the clamp. -/

namespace Sys2Proof.Machine

/-! ## Infinities and zeros -/

theorem isNaN_of_isInf {x : F32} (h : isInf x = true) : isNaN x = false := by
  rw [isInf_iff] at h
  rw [isNaN_eq_false_iff]
  omega

theorem isZero_of_isInf {x : F32} (h : isInf x = true) : isZero x = false := by
  rw [isInf_iff] at h
  rw [← Bool.not_eq_true, isZero_iff]
  omega

theorem isFinite_of_isZero {x : F32} (h : isZero x = true) : isFinite x = true := by
  rw [isZero_iff] at h
  rw [isFinite_iff]
  omega

theorem isInf_ofParts_inf (neg : Bool) : isInf (ofParts neg 0x7F800000) = true := by
  rw [isInf_iff, magOf_ofParts neg _ (by decide)]

theorem isZero_ofParts_zero (neg : Bool) : isZero (ofParts neg 0) = true := by
  rw [isZero_iff, magOf_ofParts neg _ (by decide)]

theorem ofParts_zero (neg : Bool) : ofParts neg 0 = if neg then NEG_ZERO else ZERO := by
  cases neg <;> rfl

/-! ## Addition -/

theorem fadd_inf_opposite {a b : F32} (ha : isInf a = true) (hb : isInf b = true)
    (hs : signOf a ≠ signOf b) : fadd a b = QNAN := by
  simp [fadd, isNaN_of_isInf ha, isNaN_of_isInf hb, ha, hb, hs]

/-- An infinity absorbs every finite value and the infinity of its own sign. -/
theorem fadd_inf_left {a b : F32} (ha : isInf a = true) (hb : isNaN b = false)
    (h : isFinite b = true ∨ signOf b = signOf a) : fadd a b = a := by
  rcases h with h | h
  · simp [fadd, isNaN_of_isInf ha, hb, ha, isInf_of_isFinite h]
  · simp [fadd, isNaN_of_isInf ha, hb, ha, h]

theorem fadd_inf_right {a b : F32} (ha : isInf a = true) (hb : isNaN b = false)
    (h : isFinite b = true ∨ signOf b = signOf a) : fadd b a = a := by
  cases hi : isInf b with
  | false => simp [fadd, isNaN_of_isInf ha, hb, ha, hi]
  | true =>
    have hs : signOf b = signOf a := h.resolve_left fun hf => by
      rw [isInf_of_isFinite hf] at hi
      cases hi
    have hab : b = a := ext_sign_mag hs (((isInf_iff b).mp hi).trans ((isInf_iff a).mp ha).symm)
    rw [hab]
    exact fadd_inf_left ha (isNaN_of_isInf ha) (Or.inr rfl)

/-! ## Multiplication -/

theorem fmul_comm (a b : F32) : fmul a b = fmul b a := by
  unfold fmul
  rw [Bool.or_comm (isNaN a), Bool.or_comm (isInf a), Bool.or_comm (isZero a),
    bne_comm (a := signOf a), Nat.mul_comm (unitsOf a)]

theorem fmul_inf_zero {a b : F32} (ha : isInf a = true) (hb : isZero b = true) :
    fmul a b = QNAN := by
  simp [fmul, isNaN_of_isInf ha, isNaN_of_isFinite (isFinite_of_isZero hb), ha, hb]

theorem fmul_inf {a b : F32} (ha : isInf a = true) (hb : isNaN b = false) (h0 : isZero b = false) :
    fmul a b = ofParts (signOf a != signOf b) 0x7F800000 := by
  simp [fmul, isNaN_of_isInf ha, hb, ha, isZero_of_isInf ha, h0]

theorem signOf_fmul_finite {a b : F32} (ha : isFinite a = true) (hb : isFinite b = true) :
    signOf (fmul a b) = (signOf a != signOf b) := by
  rw [fmul_finite ha hb, signOf_ofParts _ _ (roundUnits_lt_sign _ _)]

/-! ## Division -/

theorem fdiv_inf_inf {a b : F32} (ha : isInf a = true) (hb : isInf b = true) :
    fdiv a b = QNAN := by
  simp [fdiv, isNaN_of_isInf ha, isNaN_of_isInf hb, ha, hb]

theorem fdiv_finite_inf {a b : F32} (ha : isFinite a = true) (hb : isInf b = true) :
    fdiv a b = ofParts (signOf a != signOf b) 0 := by
  simp [fdiv, isNaN_of_isFinite ha, isNaN_of_isInf hb, isInf_of_isFinite ha, hb]

/-- Division of a finite value by zero: invalid for a zero, else an infinity. -/
theorem fdiv_by_zero {a b : F32} (ha : isFinite a = true) (hb : isZero b = true) :
    fdiv a b = if isZero a then QNAN else ofParts (signOf a != signOf b) 0x7F800000 := by
  have hbf := isFinite_of_isZero hb
  simp [fdiv, isNaN_of_isFinite ha, isNaN_of_isFinite hbf, isInf_of_isFinite ha,
    isInf_of_isFinite hbf, hb]

theorem fdiv_zero_zero {a b : F32} (ha : isZero a = true) (hb : isZero b = true) :
    fdiv a b = QNAN := by
  rw [fdiv_by_zero (isFinite_of_isZero ha) hb, ha, if_pos rfl]

theorem fdiv_nonzero_zero {a b : F32} (ha : isFinite a = true) (h0 : isZero a = false)
    (hb : isZero b = true) : fdiv a b = ofParts (signOf a != signOf b) 0x7F800000 := by
  rw [fdiv_by_zero ha hb, h0, if_neg Bool.false_ne_true]

theorem signOf_fdiv_finite {a b : F32} (ha : isFinite a = true) (hb : isFinite b = true)
    (h0 : isZero b = false) : signOf (fdiv a b) = (signOf a != signOf b) := by
  rw [fdiv_finite ha hb h0, signOf_ofParts _ _ (roundUnits_lt_sign _ _)]

/-- A result that is the infinity of a sign. -/
theorem isInf_and_sign {r : F32} {neg : Bool} (h : r = ofParts neg 0x7F800000) :
    isInf r = true ∧ signOf r = neg := by
  rw [h]
  exact ⟨isInf_ofParts_inf neg, signOf_ofParts neg _ (by decide)⟩

/-- A result that is the zero of a sign. -/
theorem isZero_and_sign {r : F32} {neg : Bool} (h : r = ofParts neg 0) :
    isZero r = true ∧ signOf r = neg := by
  rw [h]
  exact ⟨isZero_ofParts_zero neg, signOf_ofParts neg _ (by decide)⟩

/-! ## Free values (R16, R17) -/

theorem sinF32_canonical (x : F32) (h : isNaN (Config.sinF32 x) = true) : Config.sinF32 x = QNAN := by
  cases hf : isFinite x with
  | false => exact Config.sin.not_finite x hf
  | true =>
    have hle : fle (Config.sinF32 x) ONE = true := (Config.sin.finite_in_range x hf).2
    rw [(fle_iff.mp hle).1] at h
    cases h

theorem isNaN_powF32 {x y : F32} (hx : Config.powBase x = true) (hy : Config.powExp y = true) :
    isNaN (Config.powF32 x y) = false :=
  (fle_iff.mp (Config.pow.in_range x y hx hy).1).2.1

/-! ## Comparisons and fields (R13) -/

theorem not_flt_of_fle {a b : F32} (h : fle a b = true) : flt b a = false := by
  obtain ⟨ha, hb, -⟩ := fle_iff.mp h
  exact (not_flt_iff hb ha).mpr h

theorem fle_of_flt {a b : F32} (h : flt a b = true) : fle a b = true := by
  obtain ⟨ha, hb, hlt⟩ := flt_iff.mp h
  exact fle_iff.mpr ⟨ha, hb, hlt.le⟩

theorem isNaN_of_fgt {a b : F32} (h : fgt a b = true) : isNaN a = false := (fgt_iff.mp h).2.1

theorem not_flt_of_fgt {a b : F32} (h : fgt a b = true) : flt a b = false :=
  not_flt_of_fle (fle_of_flt h)

theorem not_fle_of_fgt {a b : F32} (h : fgt a b = true) : fle a b = false := by
  obtain ⟨hb, ha, -⟩ := fgt_iff.mp h
  exact (not_fle_iff ha hb).mpr h

theorem compare_of_nan {a b : F32} (h : isNaN a = true ∨ isNaN b = true) :
    flt a b = false ∧ fle a b = false ∧ fgt a b = false ∧ fge a b = false ∧ feq a b = false := by
  rcases h with h | h <;> simp [flt, fle, fgt, fge, feq, h]

theorem compare_of_isFinite {a b : F32} (ha : isFinite a = true) (hb : isFinite b = true) :
    (flt a b = true ↔ signedUnits a < signedUnits b) ∧
    (fle a b = true ↔ signedUnits a ≤ signedUnits b) ∧
    (feq a b = true ↔ signedUnits a = signedUnits b) := by
  rw [flt_iff, fle_iff, feq_iff, orderKey_lt_iff, orderKey_le_iff, orderKey_eq_iff]
  simp [isNaN_of_isFinite ha, isNaN_of_isFinite hb]

/-- A finite value stands between the keys of the infinities. -/
theorem orderKey_bounds {a : F32} (h : isFinite a = true) :
    -0x7F800000 < orderKey a ∧ orderKey a < 0x7F800000 := by
  rw [isFinite_iff] at h
  unfold orderKey
  split <;> omega

theorem finite_between_infinities {a : F32} (h : isFinite a = true) :
    flt a 0x7F800000#32 = true ∧ fgt a 0xFF800000#32 = true := by
  obtain ⟨hlo, hhi⟩ := orderKey_bounds h
  have hn := isNaN_of_isFinite h
  have hkey : orderKey 0xFF800000#32 = -0x7F800000 := by decide
  refine ⟨flt_iff.mpr ⟨hn, by decide, ?_⟩, fgt_iff.mpr ⟨by decide, hn, ?_⟩⟩
  · exact hhi
  · rwa [hkey]

theorem expBits_eq_iff (a : F32) : a.extractLsb' 23 8 = 0xFF#8 ↔ expOf a = 255 := by
  rw [← BitVec.toNat_inj, BitVec.extractLsb'_toNat, Nat.shiftRight_eq_div_pow]
  simp only [BitVec.toNat_ofNat, expOf, magOf]
  omega

theorem fracBits_eq_iff (a : F32) : a.extractLsb' 0 23 = 0#23 ↔ fracOf a = 0 := by
  rw [← BitVec.toNat_inj, BitVec.extractLsb'_toNat, Nat.shiftRight_eq_div_pow]
  simp only [BitVec.toNat_ofNat, fracOf, magOf]
  omega

/-! ## Clamping (R14, R122) -/

theorem clampf_below {x lo hi : F32} (h : flt x lo = true) : clampf x lo hi = lo := by
  simp [clampf, h]

theorem clampf_above {x lo hi : F32} (hle : fle lo hi = true) (h : fgt x hi = true) :
    clampf x lo hi = hi := by
  have hlo : flt x lo = false := not_flt_of_fle (fle_trans hle (fle_of_flt h))
  simp [clampf, hlo, h]

theorem clampf_inside {x lo hi : F32} (hlo : fle lo x = true) (hhi : fle x hi = true) :
    clampf x lo hi = x := by
  simp [clampf, fgt, not_flt_of_fle hlo, not_flt_of_fle hhi]

theorem clampf_neg_zero {hi : F32} (h : fle ZERO hi = true) :
    clampf NEG_ZERO ZERO hi = NEG_ZERO :=
  clampf_inside (by decide) (fle_trans (b := ZERO) (by decide) h)

/-- A phase of one or more is above one, or is the pattern of one itself. -/
theorem clamp01_of_fge_one {ph : F32} (h : fge ph ONE = true) : clamp01 ph = ONE := by
  cases hgt : fgt ph ONE with
  | true => exact clampf_above (by decide) hgt
  | false =>
    have hn : isNaN ph = false := (fge_iff.mp h).2.1
    have hle : fle ph ONE = true := (not_flt_iff (by decide) hn).mp hgt
    rw [Config.eq_one_of_powExp_of_fle_one ph h hle]
    decide

end Sys2Proof.Machine
end

section
/-! SUPPORT. One rounding: the value `roundUnits` answers, under a sign, is the rounding of the signed
exact result, and so is the result of each operation. -/

namespace Sys2Proof.Machine

/-! ## Rounding of signed values -/

theorem fneg_ofParts (neg : Bool) {m : Nat} (h : m < 2147483648) :
    fneg (ofParts neg m) = ofParts (!neg) m := by
  rw [fneg, signOf_ofParts neg m h, magOf_ofParts neg m h]

/-- The last significand bit of a pattern is the parity of its magnitude. -/
theorem getLsbD_zero_eq (x : F32) : x.getLsbD 0 = decide (magOf x % 2 = 1) := by
  rw [BitVec.getLsbD, Nat.testBit_zero, decide_eq_decide, magOf]
  omega

theorem distance_fneg (x : F32) (n : Int) (d : Nat) :
    distance (signedUnits (fneg x)) n d = distance (signedUnits x) (-n) d := by
  rw [signedUnits_fneg, distance, distance, ← Int.natAbs_neg]
  congr 1
  ring

/-- Rounding to nearest is symmetric about zero. -/
theorem isRoundingOf_fneg {r : F32} {n : Int} {d : Nat} (h : isRoundingOf r n d) :
    isRoundingOf (fneg r) (-n) d := by
  obtain ⟨hnan, hnear, hinf, hneg, hpos⟩ := h
  refine ⟨by rwa [isNaN_fneg], ?_, by rwa [isInf_fneg, Int.natAbs_neg], ?_, ?_⟩
  · intro hr c hc
    rw [isFinite_fneg] at hr
    have hnear := hnear hr (fneg c) (by rwa [isFinite_fneg])
    rw [distance_fneg, signedUnits_fneg c] at hnear
    rw [distance_fneg, neg_neg, getLsbD_zero_eq, magOf_fneg, ← getLsbD_zero_eq, signedUnits_fneg]
    exact ⟨hnear.1, fun htie hne => hnear.2 htie fun he => hne (by omega)⟩
  · intro hn
    rw [signOf_fneg, hpos (by omega)]
    rfl
  · intro hn
    rw [signOf_fneg, hneg (by omega)]
    rfl

/-- A value is at least as far from a value that is not negative as its magnitude is. -/
theorem roundError_le_distance (c : F32) (n d : Nat) :
    roundError (magUnits (magOf c)) n d ≤ distance (signedUnits c) n d := by
  rw [signedUnits_eq, roundError, distance]
  have hu : (0 : Int) ≤ (magUnits (magOf c) : Int) * d := by positivity
  split
  · rw [neg_mul]
    omega
  · exact le_refl _

/-- A value is as far as its magnitude only when it is not negative, or when zero is measured from. -/
theorem eq_magUnits_of_roundError_eq {c : F32} {n d : Nat} (hd : 0 < d)
    (h : roundError (magUnits (magOf c)) n d = distance (signedUnits c) n d) :
    signedUnits c = magUnits (magOf c) ∨ n = 0 := by
  rw [signedUnits_eq, roundError, distance] at h
  rw [signedUnits_eq]
  split at h
  · rw [neg_mul] at h
    have hu : (0 : Int) ≤ (magUnits (magOf c) : Int) * d := by positivity
    by_cases hn : n = 0
    · exact Or.inr hn
    · have h0 : (magUnits (magOf c) : Int) * d = 0 := by omega
      have h1 : (magUnits (magOf c) : Int) = 0 := (mul_eq_zero.mp h0).resolve_right (by omega)
      exact Or.inl (by rw [h1]; simp)
  · exact Or.inl (by simp [*])

/-- `roundUnits` rounds a value that is not negative to nearest, ties to even. -/
theorem isRoundingOf_pos (n d : Nat) (hd : 0 < d) :
    isRoundingOf (ofParts false (roundUnits n d)) n d := by
  have hlt := roundUnits_lt_sign n d
  have hmag := magOf_ofParts false _ hlt
  have hval : signedUnits (ofParts false (roundUnits n d)) = magUnits (roundUnits n d) :=
    signedUnits_ofParts false _ hlt
  refine ⟨isNaN_ofParts_roundUnits _ _ _, ?_, ?_, by omega, fun _ => signOf_ofParts _ _ hlt⟩
  · intro hfin c _
    rw [isFinite_iff, hmag] at hfin
    obtain ⟨hnear, heven⟩ := roundUnits_nearest n d (magOf c) hd hfin
    have hc := roundError_le_distance c n d
    rw [hval, show distance (magUnits (roundUnits n d)) n d =
      roundError (magUnits (roundUnits n d)) n d from rfl]
    refine ⟨le_trans hnear hc, fun htie hne => ?_⟩
    have htie' : roundError (magUnits (roundUnits n d)) n d = roundError (magUnits (magOf c)) n d := by
      omega
    have hR : roundUnits n d % 2 = 0 := by
      by_cases hm : magOf c = roundUnits n d
      · rcases eq_magUnits_of_roundError_eq hd (htie'.symm.trans htie) with hs | rfl
        · exact absurd (by rw [hs, hm]) hne
        · rw [roundUnits_zero d hd]
      · exact heven htie' hm
    rw [getLsbD_zero_eq, hmag, hR]
    rfl
  · rw [isInf_iff, hmag, roundUnits_overflow n d hd, Int.natAbs_natCast]

/-- The rounded magnitude under a sign is the rounding of the signed value. -/
theorem isRoundingOf_ofParts (neg : Bool) (n d : Nat) (hd : 0 < d) :
    isRoundingOf (ofParts neg (roundUnits n d)) (if neg then -(n : Int) else n) d := by
  cases neg with
  | false => exact isRoundingOf_pos n d hd
  | true =>
    have h := isRoundingOf_fneg (isRoundingOf_pos n d hd)
    rwa [fneg_ofParts false (roundUnits_lt_sign n d)] at h

/-! ## The operations round once (R11) -/

theorem fadd_isRoundingOf {a b : F32} (ha : isFinite a = true) (hb : isFinite b = true) :
    isRoundingOf (fadd a b) (signedUnits a + signedUnits b) 1 := by
  by_cases h : signedUnits a + signedUnits b = 0
  · have hr := isRoundingOf_ofParts (signOf a && signOf b) 0 1 (by decide)
    rw [roundUnits_zero 1 (by decide)] at hr
    rw [fadd_finite_zero ha hb h, h]
    simpa using hr
  · have hr := isRoundingOf_ofParts (decide (signedUnits a + signedUnits b < 0))
      (signedUnits a + signedUnits b).natAbs 1 (by decide)
    rw [fadd_finite ha hb h]
    convert hr using 1
    split <;> rename_i hs <;> rw [decide_eq_true_eq] at hs <;> omega

theorem fsub_isRoundingOf {a b : F32} (ha : isFinite a = true) (hb : isFinite b = true) :
    isRoundingOf (fsub a b) (signedUnits a - signedUnits b) 1 := by
  have h := fadd_isRoundingOf ha (b := fneg b) (by rwa [isFinite_fneg])
  rwa [signedUnits_fneg, ← sub_eq_add_neg] at h

theorem signedUnits_mul (a b : F32) :
    signedUnits a * signedUnits b =
      if signOf a != signOf b then -((unitsOf a * unitsOf b : Nat) : Int)
      else ((unitsOf a * unitsOf b : Nat) : Int) := by
  rw [signedUnits, signedUnits]
  cases signOf a <;> cases signOf b <;> simp

theorem fmul_isRoundingOf {a b : F32} (ha : isFinite a = true) (hb : isFinite b = true) :
    isRoundingOf (fmul a b) (signedUnits a * signedUnits b) (2 ^ 149) := by
  rw [fmul_finite ha hb, signedUnits_mul]
  exact isRoundingOf_ofParts _ _ _ (Nat.two_pow_pos 149)

/-- The dividend of the exact quotient, with the sign of the divisor moved to it. -/
theorem signedUnits_dividend (a b : F32) :
    (if signOf b then -(signedUnits a * 2 ^ 149) else signedUnits a * 2 ^ 149) =
      if signOf a != signOf b then -((unitsOf a * 2 ^ 149 : Nat) : Int)
      else ((unitsOf a * 2 ^ 149 : Nat) : Int) := by
  rw [signedUnits]
  cases signOf a <;> cases signOf b <;> simp

theorem unitsOf_pos {x : F32} (h : isZero x = false) : 0 < unitsOf x := by
  rw [← Bool.not_eq_true, isZero_iff] at h
  exact magUnits_pos.mpr (Nat.pos_of_ne_zero h)

theorem fdiv_isRoundingOf {a b : F32} (ha : isFinite a = true) (hb : isFinite b = true)
    (h0 : isZero b = false) :
    isRoundingOf (fdiv a b)
      (if signOf b then -(signedUnits a * 2 ^ 149) else signedUnits a * 2 ^ 149) (unitsOf b) := by
  rw [fdiv_finite ha hb h0, signedUnits_dividend]
  exact isRoundingOf_ofParts _ _ _ (unitsOf_pos h0)

end Sys2Proof.Machine
end

section
/-! SUPPORT. The reset values are legal, whatever the creation-time parameters. -/

namespace Sys2Proof.Machine

open Sys2Proof.Config

/-! ## Reset (R401-R404) -/

/-- The reset frequency is the default one, or a given one above zero (R401). -/
theorem resetFreq_cases (p : Params) :
    resetFreq p = p.defaultFreq ∨ fgt (resetFreq p) ZERO = true := by
  unfold resetFreq
  split
  · split
    · rename_i hf
      exact Or.inr (Bool.and_eq_true_iff.mp hf).2
    · exact Or.inl rfl
  · exact Or.inl rfl

theorem fgt_zero_resetFreq {p : Params} (h : fgt p.defaultFreq ZERO = true) :
    fgt (resetFreq p) ZERO = true := by
  rcases resetFreq_cases p with hd | hf
  · rwa [hd]
  · exact hf

theorem isNaN_resetIdle (p : Params) : isNaN (resetIdle p) = false := by
  unfold resetIdle
  split
  · split
    · decide
    · rename_i hf
      simpa using hf
  · decide

/-- The generator starts at no zero state, whatever the seed (R404). -/
theorem resetPrbs_ne_zero (p : Params) : resetPrbs p ≠ 0#32 := by
  unfold resetPrbs
  split
  · decide
  · assumption

theorem paramsWf_iff (p : Params) :
    p.wf = true ↔ (isFinite p.defaultFreq = true ∧ fgt p.defaultFreq ZERO = true) ∧
      isFinite p.srPlaceholder = true ∧ fgt p.srPlaceholder ZERO = true := by
  simp [Params.wf, and_assoc]

/-- Each register starts in its set of legal values (R31), and the increment as the quotient (R39). -/
theorem resetWith_legal {p : Params} (h : p.wf = true) : (Osc.resetWith p).Legal := by
  obtain ⟨⟨-, hfreq⟩, hfin, hsr⟩ := (paramsWf_iff p).mp h
  have hrun := fgt_zero_resetFreq hfreq
  have hscale : isNaN ZERO = false ∧ isNaN ONE = false ∧ isNaN ZERO = false := by decide
  have hpw : fle PW_MIN HALF = true ∧ fle HALF PW_MAX = true := by decide
  have hscoef : inUnit ONE := by decide
  have hphase : signOf ZERO = false ∧ isNaN ZERO = false := by decide
  have hheld : inBipolar ZERO := by decide
  have hsmoothed : canonical ZERO := by decide
  exact ⟨⟨isNaN_of_fgt hrun, not_flt_of_fgt hrun⟩, hscale, hpw, hscoef, ⟨hfin, hsr⟩, hphase, rfl,
    hheld, hsmoothed, isNaN_resetIdle p, resetPrbs_ne_zero p⟩

theorem resetWith_running {p : Params} (h : p.wf = true) : isIdle (Osc.resetWith p) = false :=
  not_fle_of_fgt (fgt_zero_resetFreq ((paramsWf_iff p).mp h).1.2)

end Sys2Proof.Machine
end

section
/-! SUPPORT. The scope's statements settled. -/

open Sys2Proof Sys2Proof.Machine

/-- Settles O7: the step takes the head word off, and a word that decodes is executed. -/
theorem stepRunsTheDecodedCommand : Obligations.StepRunsTheDecodedCommand := by
  unfold Obligations.StepRunsTheDecodedCommand
  intro s w rest i hp hd
  rw [step_cons hp, transact_of_ok hd]

/-- Settles O13: a step's effect and response are functions of `S` and the word. -/
theorem stepDependsOnBlockStateOnly : Obligations.StepDependsOnBlockStateOnly := by
  unfold Obligations.StepDependsOnBlockStateOnly
  intro s s' t t' w rest rest' hosc hp hp' hs hs'
  rw [step_eq_wordEffect hp] at hs
  rw [step_eq_wordEffect hp', ← hosc] at hs'
  cases hs
  cases hs'
  exact ⟨rfl, rfl⟩

/-- Settles O51: the increment is the quotient of the default frequency and rate. -/
theorem defaultResetValues : Obligations.DefaultResetValues := by
  unfold Obligations.DefaultResetValues
  have hpinc : State.reset.osc.pinc = 0x37BE37C6#32 := by decide +kernel
  have hstatus : status State.reset.osc = 0x00000001#32 := by decide +kernel
  exact ⟨rfl, rfl, hpinc, rfl, rfl, hstatus, rfl, rfl⟩

/-- Settles O11: the command executed decides the response's fields. A word that decodes names no
register 15, so its READ has a value. -/
theorem everyCommandGivesOneResponse : Obligations.EveryCommandGivesOneResponse := by
  unfold Obligations.EveryCommandGivesOneResponse
  intro s t w rest hp hs
  rw [step_eq_wordEffect hp] at hs
  cases hs
  refine ⟨(wordEffect w s.osc).2, rfl, rfl, ?_⟩
  cases hd : decode w with
  | ok i =>
    have hread : ∀ r, i = .read r → r ≠ 15#4 := fun r hr => decode_read_ne (hr ▸ hd)
    simp only [wordEffect_ok hd, issued_of_ok hp hd, Option.some.injEq]
    exact ⟨commandEffect_sample_iff i s.osc, commandEffect_rdata_iff hread s.osc,
      fun hill => absurd hill (not_issuesIllegal_of_ok hp hd)⟩
  | error e => simp [wordEffect_error hd, issued_of_error hp hd, Resp.empty]

/-- Settles O14, by induction on the host's list. -/
theorem stepsGiveTheObservedState : Obligations.StepsGiveTheObservedState := by
  unfold Obligations.StepsGiveTheObservedState
  exact run_eq_observe

/-- Settles O52: each register's reset rule gives a value of its legal set, and the reset frequency
is above zero. -/
theorem resetIsLegalAndRunning : Obligations.ResetIsLegalAndRunning := by
  unfold Obligations.ResetIsLegalAndRunning
  exact fun p hp => ⟨resetWith_legal hp, resetWith_running hp⟩

/-- Settles O56: each operation is `roundUnits` of its exact result under that result's sign. -/
theorem operationsRoundToNearestEven : Obligations.OperationsRoundToNearestEven := by
  unfold Obligations.OperationsRoundToNearestEven
  exact fun a b ha hb => ⟨fadd_isRoundingOf ha hb, fsub_isRoundingOf ha hb, fmul_isRoundingOf ha hb,
    fdiv_isRoundingOf ha hb⟩

/-- Settles O57: the cases of each operation, one lemma per case. -/
theorem operationsOnInfinitiesAndZeros : Obligations.OperationsOnInfinitiesAndZeros := by
  unfold Obligations.OperationsOnInfinitiesAndZeros
  intro a b hna hnb
  refine ⟨fadd_inf_opposite, fun ha h => ⟨fadd_inf_left ha hnb h, fadd_inf_right ha hnb h⟩,
    fun ha hb h0 => (fadd_finite_zero ha hb h0).trans (ofParts_zero _), rfl,
    fun ha hb => ⟨fmul_inf_zero ha hb, (fmul_comm b a).trans (fmul_inf_zero ha hb)⟩, ?_,
    signOf_fmul_finite, fdiv_inf_inf, fdiv_zero_zero,
    fun ha hb => isInf_and_sign (fdiv_inf_finite ha hb),
    fun ha hb => isZero_and_sign (fdiv_finite_inf ha hb),
    fun ha h0 hb => isInf_and_sign (fdiv_nonzero_zero ha h0 hb), signOf_fdiv_finite⟩
  intro ha h0
  obtain ⟨hinf, hsign⟩ := isInf_and_sign (fmul_inf ha hnb h0)
  exact ⟨hinf, hsign, fmul_comm b a⟩

/-- Settles O58: the operations answer no NaN but `QNAN`, the sine by its laws is NaN only off the finite
values, and the power by its laws is in [0, 1]. -/
theorem naNResultsAreCanonical : Obligations.NaNResultsAreCanonical := by
  unfold Obligations.NaNResultsAreCanonical
  exact ⟨fun a b => ⟨fadd_canonical a b, fsub_canonical a b, fmul_canonical a b, fdiv_canonical a b⟩,
    sinF32_canonical, fun _ _ => isNaN_powF32⟩

/-- Settles O59: the order of the patterns' keys is the order of the values. -/
theorem comparisonsOrderValues : Obligations.ComparisonsOrderValues := by
  unfold Obligations.ComparisonsOrderValues
  refine ⟨fun a b ha hb => ?_, fun a b => compare_of_nan, fun a => finite_between_infinities,
    by decide, by decide, by decide, by decide, fun a => ?_⟩
  · obtain ⟨hlt, hle, heq⟩ := compare_of_isFinite ha hb
    obtain ⟨hgt, hge, -⟩ := compare_of_isFinite hb ha
    exact ⟨hlt, hle, hgt, hge, heq⟩
  · rw [expBits_eq_iff, Ne, fracBits_eq_iff]
    simp [isNaN, isInf]

/-- Settles O60: on operands in order at most one of the clamp's two tests holds. -/
theorem clampfClamps : Obligations.ClampfClamps := by
  unfold Obligations.ClampfClamps
  refine ⟨fun x lo hi _ _ _ hle => ⟨clampf_below, clampf_above hle, clampf_inside⟩,
    fun hi _ => clampf_neg_zero, fun ph => ⟨fun h0 h1 => ?_, clamp01_of_fge_one⟩⟩
  exact clampf_inside h0 (fle_of_flt h1)

end

section
/-! SUPPORT. The legal values of the registers (R31): what the setters store, and what each
unit of TICK answers for legal operands. -/

namespace Sys2Proof.Machine

/-! ## Values that are no NaN and not negative -/

/-- A sum of values neither of which is NaN or negative is neither. -/
theorem fadd_nonneg {a b : F32} (ha : signOf a = false ∧ isNaN a = false)
    (hb : signOf b = false ∧ isNaN b = false) :
    signOf (fadd a b) = false ∧ isNaN (fadd a b) = false := by
  obtain ⟨hsa, hna⟩ := ha
  obtain ⟨hsb, hnb⟩ := hb
  have hs : signOf b = signOf a := hsb.trans hsa.symm
  cases hia : isInf a with
  | true => rw [fadd_inf_left hia hnb (Or.inr hs)]; exact ⟨hsa, hna⟩
  | false =>
    cases hib : isInf b with
    | true => rw [fadd_inf_right hib hna (Or.inr hs.symm)]; exact ⟨hsb, hnb⟩
    | false =>
      have hfa := isFinite_of_not hna hia
      have hfb := isFinite_of_not hnb hib
      have hsum := Int.add_nonneg (signedUnits_nonneg hsa) (signedUnits_nonneg hsb)
      exact ⟨signOf_fadd_nonneg hfa hfb hsum (by rw [hsa, Bool.false_and]),
        isNaN_fadd_finite hfa hfb⟩

/-- One subtracted from a value of one or more leaves a value that is no NaN and not negative. -/
theorem fsub_one_nonneg {x : F32} (hs : signOf x = false) (h : fge x ONE = true) :
    signOf (fsub x ONE) = false ∧ isNaN (fsub x ONE) = false := by
  obtain ⟨-, hn, hle⟩ := fge_iff.mp h
  cases hi : isInf x with
  | true =>
    have hx : fsub x ONE = x := fadd_inf_left hi (by decide) (Or.inl (by decide))
    rw [hx]
    exact ⟨hs, hn⟩
  | false =>
    have hf := isFinite_of_not hn hi
    exact ⟨signOf_fsub_nonneg hf isFinite_ONE ((orderKey_le_iff _ _).mp hle)
      (by rw [hs, Bool.false_and]), isNaN_fsub_finite hf isFinite_ONE⟩

/-- ADVANCE keeps the phase no NaN and not negative, under such an increment (R150). -/
theorem nextPhase_nonneg {o : Osc} (hphase : signOf o.phase = false ∧ isNaN o.phase = false)
    (hpinc : signOf o.pinc = false ∧ isNaN o.pinc = false) :
    signOf (nextPhase o) = false ∧ isNaN (nextPhase o) = false := by
  have hsum : signOf (phaseSum o) = false ∧ isNaN (phaseSum o) = false := fadd_nonneg hphase hpinc
  unfold nextPhase
  split
  · exact hphase
  · split
    · rename_i hwraps
      exact fsub_one_nonneg hsum.1 (Bool.and_eq_true_iff.mp hwraps).2
    · exact hsum

/-! ## The generator and the held value (R155, R157) -/

/-- The generator's step keeps it off zero: the feedback sets bit 31, which the shift clears, and a
state with bit 0 clear keeps all its bits in the shift. -/
theorem lfsrStep_ne_zero {s : U32} (h : s ≠ 0#32) : lfsrStep s ≠ 0#32 := by
  unfold lfsrStep
  split
  · intro h0
    have h31 := congrArg (fun v => v.getLsbD 31) h0
    simp at h31
  · rename_i hbit
    intro h0
    apply h
    have hmod : s.toNat % 2 = 0 := by
      simpa [BitVec.getLsbD, Nat.testBit_zero] using hbit
    have hdiv := congrArg BitVec.toNat h0
    rw [BitVec.toNat_ushiftRight, Nat.shiftRight_eq_div_pow] at hdiv
    apply BitVec.eq_of_toNat_eq
    simp only [BitVec.toNat_ofNat] at hdiv ⊢
    omega

/-- A magnitude of one or less, under either sign, is in [-1, 1]. -/
theorem inBipolar_of_magOf_le {x : F32} (h : magOf x ≤ 0x3F800000) : inBipolar x := by
  have hn : isNaN x = false := isNaN_of_isFinite (isFinite_of_mag_le_one h)
  have hkey : -0x3F800000 ≤ orderKey x ∧ orderKey x ≤ 0x3F800000 := by
    unfold orderKey
    split <;> omega
  have hminus : orderKey MINUS_ONE = -0x3F800000 := by decide
  exact ⟨fle_iff.mpr ⟨by decide, hn, hminus ▸ hkey.1⟩,
    fle_iff.mpr ⟨hn, by decide, orderKey_ONE ▸ hkey.2⟩⟩

/-- A whole number of 2^-23 of magnitude one or less, under either sign, is in [-1, 1]. -/
theorem inBipolar_ofParts_roundUnits (neg : Bool) {k : Nat} (hk : k ≤ 8388608) :
    inBipolar (ofParts neg (roundUnits (k * 2 ^ 126) 1)) := by
  apply inBipolar_of_magOf_le
  rw [magOf_ofParts _ _ (roundUnits_lt_sign _ _)]
  apply roundUnits_le_of_le (by decide) (by decide)
  rw [magUnits_one]
  omega

theorem inBipolar_prbsValue (s : U32) : inBipolar (prbsValue s) := by
  have hu := (s.extractLsb' 8 24).isLt
  dsimp only [prbsValue]
  split
  · exact inBipolar_ofParts_roundUnits false (by omega)
  · exact inBipolar_ofParts_roundUnits true (by omega)

/-! ## The values the setters store -/

theorem freqValue_legal {f : F32} (hf : isNaN f = false) :
    isNaN (freqValue f) = false ∧ flt (freqValue f) ZERO = false := by
  unfold freqValue
  split
  · decide
  · rename_i hneg
    exact ⟨hf, by simpa using hneg⟩

theorem scoefValue_inUnit {f : F32} (hf : isNaN f = false) : inUnit (scoefValue f) := by
  obtain ⟨h0, h1⟩ := clampf_between (lo := ZERO) (hi := ONE) hf (by decide) (by decide) (by decide)
  obtain ⟨hmag, -, hle⟩ := between_zero_one h0 h1
  exact ⟨signOf_fsub_nonneg isFinite_ONE (isFinite_of_mag_le_one hmag)
    (by rwa [signedUnits_ONE]) rfl, (fsub_one_between h0 h1).2⟩

theorem filterValue_canonical (o : Osc) (raw : F32) : canonical (filterValue o (scale o raw)) := by
  unfold filterValue
  split
  · exact fadd_canonical _ _
  · exact fadd_canonical _ _

end Sys2Proof.Machine
end

section
/-! SUPPORT. What each command keeps of the invariant, and which registers it writes (R31). -/

namespace Sys2Proof.Machine

/-! ## Operands -/

theorem f32Operand_eq_some {d f : F32} (h : f32Operand d = some f) : isNaN f = false := by
  unfold f32Operand at h
  split at h
  · cases h
  · cases h
    simpa using ‹¬isNaN d = true›

/-- What holds of the block after a setter: it held before, for an ignored operand, and holds after
the write of an accepted one. -/
theorem elim_operand {α : Type} (P : Osc → Prop) {o : Osc} {operand : Option α}
    {write : α → Osc} (ho : P o) (hw : ∀ v, operand = some v → P (write v)) :
    P (operand.elim o write) := by
  cases operand with
  | none => exact ho
  | some v => exact hw v rfl

/-! ## Each write keeps the invariant, given a legal value -/

theorem Osc.Legal.setFreq {o : Osc} (h : o.Legal) {f : F32}
    (hf : isNaN f = false ∧ flt f ZERO = false) : (o.setFreq f).Legal := by
  obtain ⟨-, hscale, hpw, hscoef, hsr, hphase, -, hrest⟩ := h
  exact ⟨hf, hscale, hpw, hscoef, hsr, hphase, rfl, hrest⟩

theorem Osc.Legal.writeOffset {o : Osc} (h : o.Legal) {f : F32} (hf : isNaN f = false) :
    (o.writeOffset f).Legal := by
  obtain ⟨hfreq, ⟨-, hdepth, hshape⟩, hrest⟩ := h
  exact ⟨hfreq, ⟨hf, hdepth, hshape⟩, hrest⟩

theorem Osc.Legal.writeDepth {o : Osc} (h : o.Legal) {f : F32} (hf : isNaN f = false) :
    (o.writeDepth f).Legal := by
  obtain ⟨hfreq, ⟨hoffset, -, hshape⟩, hrest⟩ := h
  exact ⟨hfreq, ⟨hoffset, hf, hshape⟩, hrest⟩

theorem Osc.Legal.writeShape {o : Osc} (h : o.Legal) {f : F32} (hf : isNaN f = false) :
    (o.writeShape f).Legal := by
  obtain ⟨hfreq, ⟨hoffset, hdepth, -⟩, hrest⟩ := h
  exact ⟨hfreq, ⟨hoffset, hdepth, hf⟩, hrest⟩

theorem Osc.Legal.writePw {o : Osc} (h : o.Legal) {f : F32}
    (hf : fle PW_MIN f = true ∧ fle f PW_MAX = true) : (o.writePw f).Legal := by
  obtain ⟨hfreq, hscale, -, hrest⟩ := h
  exact ⟨hfreq, hscale, hf, hrest⟩

theorem Osc.Legal.writeScoef {o : Osc} (h : o.Legal) {f : F32} (hf : inUnit f) :
    (o.writeScoef f).Legal := by
  obtain ⟨hfreq, hscale, hpw, -, hrest⟩ := h
  exact ⟨hfreq, hscale, hpw, hf, hrest⟩

theorem Osc.Legal.setSr {o : Osc} (h : o.Legal) {f : F32}
    (hf : isFinite f = true ∧ fgt f ZERO = true) : (o.setSr f).Legal := by
  obtain ⟨hfreq, hscale, hpw, hscoef, -, hphase, -, hrest⟩ := h
  exact ⟨hfreq, hscale, hpw, hscoef, hf, hphase, rfl, hrest⟩

theorem Osc.Legal.writePhase {o : Osc} (h : o.Legal) {f : F32}
    (hf : signOf f = false ∧ isNaN f = false) : (o.writePhase f).Legal := by
  obtain ⟨hfreq, hscale, hpw, hscoef, hsr, -, hrest⟩ := h
  exact ⟨hfreq, hscale, hpw, hscoef, hsr, hf, hrest⟩

/-! ## TICK keeps the invariant -/

/-- A Running block's increment is no NaN and not negative (R39, R181). -/
theorem Osc.Legal.pinc_nonneg {o : Osc} (h : o.Legal) (hrun : isIdle o = false) :
    signOf o.pinc = false ∧ isNaN o.pinc = false := by
  obtain ⟨⟨hfreq, -⟩, -, -, -, ⟨hfin, hpos⟩, -, hpinc, -⟩ := h
  have hsign : signOf o.freq = false :=
    (signOf_of_fgt_zero ((not_fle_iff hfreq (by decide)).mp hrun)).1
  obtain ⟨hn, hs⟩ := fdiv_pos_divisor hfreq hfin hpos
  rw [hpinc]
  exact ⟨hs.trans hsign, hn⟩

theorem runningTick_legal {o : Osc} (h : o.Legal) (hrun : isIdle o = false) :
    (runningTick o).1.Legal := by
  have hinc := h.pinc_nonneg hrun
  obtain ⟨hfreq, hscale, hpw, hscoef, hsr, hphase, hpinc, hheld, -, hidle, hprbs⟩ := h
  rw [runningTick_eq]
  refine ⟨hfreq, hscale, hpw, hscoef, hsr, nextPhase_nonneg hphase hinc, hpinc, ?_,
    filterValue_canonical o _, hidle, ?_⟩
  · dsimp only
    split
    · exact inBipolar_prbsValue _
    · exact hheld
  · dsimp only
    split
    · exact lfsrStep_ne_zero hprbs
    · exact hprbs

theorem tickOsc_legal {o : Osc} (h : o.Legal) : (tickOsc o).1.Legal := by
  cases hi : isIdle o with
  | true =>
    rw [tickOsc_idle hi]
    exact h.writePhase (by decide)
  | false =>
    rw [tickOsc_running hi]
    exact runningTick_legal h hi

/-! ## Commands, words and steps keep the invariant -/

theorem commandEffect_legal {o : Osc} (h : o.Legal) (i : Instr) :
    (commandEffect i o).1.Legal := by
  cases i with
  | nop => exact h
  | setFreq d =>
    exact elim_operand Osc.Legal h fun f hf =>
      h.setFreq (freqValue_legal (f32Operand_eq_some hf))
  | setWave d => exact elim_operand Osc.Legal h fun _ _ => h
  | setOffset d => exact elim_operand Osc.Legal h fun f hf => h.writeOffset (f32Operand_eq_some hf)
  | setDepth d => exact elim_operand Osc.Legal h fun f hf => h.writeDepth (f32Operand_eq_some hf)
  | setShape d => exact elim_operand Osc.Legal h fun f hf => h.writeShape (f32Operand_eq_some hf)
  | setPw d =>
    exact elim_operand Osc.Legal h fun f hf => h.writePw
      (clampf_between (f32Operand_eq_some hf) (by decide) (by decide) (by decide))
  | setSmooth d =>
    exact elim_operand Osc.Legal h fun f hf =>
      h.writeScoef (scoefValue_inUnit (f32Operand_eq_some hf))
  | setSr d =>
    refine elim_operand Osc.Legal h fun f hf => ?_
    obtain ⟨rfl, hsr⟩ := sampleRateOperand_some hf
    exact h.setSr hsr
  | resetPhase => exact h.writePhase (by decide)
  | tick => exact tickOsc_legal h
  | read r =>
    dsimp only [commandEffect]
    cases readReg o r <;> exact h

theorem wordEffect_legal {o : Osc} (h : o.Legal) (w : Word) : (wordEffect w o).1.Legal := by
  cases hd : decode w with
  | ok i =>
    rw [wordEffect_ok hd]
    exact commandEffect_legal h i
  | error e =>
    rw [wordEffect_error hd]
    exact h

/-! ## The registers a command writes (R31) -/

/-- The column "written by" of R31, read by command: `p` is `o` but for the registers that the
command writes. READ 15, which no word decodes to, is left open. -/
def writesOnly (o p : Osc) : Instr → Prop
  | .nop => p = o
  | .setFreq _ => ∃ f inc, p = { o with freq := f, pinc := inc }
  | .setWave _ => ∃ v, p = o.writeWave v
  | .setOffset _ => ∃ v, p = o.writeOffset v
  | .setDepth _ => ∃ v, p = o.writeDepth v
  | .setShape _ => ∃ v, p = o.writeShape v
  | .setPw _ => ∃ v, p = o.writePw v
  | .setSmooth _ => ∃ v, p = o.writeScoef v
  | .setSr _ => ∃ r inc, p = { o with sr := r, pinc := inc }
  | .resetPhase => ∃ v, p = o.writePhase v
  | .tick => (∃ v, p = o.writePhase v) ∨ (isIdle o = false ∧ ∃ out ph gen v,
      p = { o with smoothed := out, phase := ph, prbs := gen, held := v })
  | .read r => r ≠ 15#4 → p = o

theorem tickOsc_writesOnly (o : Osc) : writesOnly o (tickOsc o).1 .tick := by
  cases hi : isIdle o with
  | true => exact Or.inl ⟨ZERO, by rw [tickOsc_idle hi]; rfl⟩
  | false => exact Or.inr ⟨hi, _, _, _, _, by rw [tickOsc_running hi, runningTick_eq]⟩

theorem commandEffect_writesOnly (i : Instr) (o : Osc) :
    writesOnly o (commandEffect i o).1 i := by
  cases i with
  | nop => rfl
  | setFreq d =>
    exact elim_operand (writesOnly o · (.setFreq d)) ⟨_, _, rfl⟩ fun _ _ => ⟨_, _, rfl⟩
  | setWave d =>
    exact elim_operand (writesOnly o · (.setWave d)) ⟨o.wave, rfl⟩ fun _ _ => ⟨_, rfl⟩
  | setOffset d =>
    exact elim_operand (writesOnly o · (.setOffset d)) ⟨o.offset, rfl⟩ fun _ _ => ⟨_, rfl⟩
  | setDepth d =>
    exact elim_operand (writesOnly o · (.setDepth d)) ⟨o.depth, rfl⟩ fun _ _ => ⟨_, rfl⟩
  | setShape d =>
    exact elim_operand (writesOnly o · (.setShape d)) ⟨o.shape, rfl⟩ fun _ _ => ⟨_, rfl⟩
  | setPw d =>
    exact elim_operand (writesOnly o · (.setPw d)) ⟨o.pw, rfl⟩ fun _ _ => ⟨_, rfl⟩
  | setSmooth d =>
    exact elim_operand (writesOnly o · (.setSmooth d)) ⟨o.scoef, rfl⟩ fun _ _ => ⟨_, rfl⟩
  | setSr d =>
    exact elim_operand (writesOnly o · (.setSr d)) ⟨_, _, rfl⟩ fun _ _ => ⟨_, _, rfl⟩
  | resetPhase => exact ⟨ZERO, rfl⟩
  | tick => exact tickOsc_writesOnly o
  | read r =>
    intro hr
    obtain ⟨v, hv⟩ := readReg_isSome (o := o) hr
    simp [commandEffect, hv]

/-! ## STATUS (R44) -/

/-- STATUS from the lowest bit up: RUN, ERR, zeros. -/
theorem status_getLsbD (o : Osc) (k : Nat) :
    (status o).getLsbD k = if k = 0 then runFlag o else if k = 1 then o.err else false := by
  unfold status
  rw [BitVec.getLsbD_append, BitVec.getLsbD_append]
  match k with
  | 0 => simp
  | 1 => simp
  | k + 2 => simp

/-! ## Reset values (R401, R403) -/

theorem resetFreq_none {p : Config.Params} (h : p.initFreq = none) :
    resetFreq p = p.defaultFreq := by
  simp [resetFreq, h]

theorem resetFreq_given {p : Config.Params} {f : F32} (h : p.initFreq = some f)
    (hn : isNaN f = false) (hpos : fgt f ZERO = true) : resetFreq p = f := by
  simp [resetFreq, h, hn, hpos]

theorem resetFreq_ignored {p : Config.Params} {f : F32} (h : p.initFreq = some f)
    (hbad : isNaN f = true ∨ fgt f ZERO = false) : resetFreq p = p.defaultFreq := by
  rcases hbad with hbad | hbad <;> simp [resetFreq, h, hbad]

theorem resetIdle_none {p : Config.Params} (h : p.idleLevelInit = none) : resetIdle p = ZERO := by
  simp [resetIdle, h]

theorem resetIdle_some {p : Config.Params} {f : F32} (h : p.idleLevelInit = some f) :
    resetIdle p = if isNaN f then ZERO else f := by
  simp [resetIdle, h]

end Sys2Proof.Machine
end

section
/-! SUPPORT. The statements about the registers settled. -/

open Sys2Proof Sys2Proof.Machine

/-- Settles O54: a step's word leaves a legal `S`, whichever command it is or if it is none. -/
theorem stepKeepsStateLegal : Obligations.StepKeepsStateLegal := by
  unfold Obligations.StepKeepsStateLegal
  intro s t hs h
  obtain ⟨-, rfl⟩ | ⟨w, rest, -, rfl⟩ := step_cases h
  · exact hs
  · exact wordEffect_legal hs w

/-- Settles O55: the step's word is illegal and sets `S.err` alone, or is a command that writes only
its own registers. -/
theorem registersAreWrittenOnlyByTheirCommands :
    Obligations.RegistersAreWrittenOnlyByTheirCommands := by
  unfold Obligations.RegistersAreWrittenOnlyByTheirCommands
  intro s t h
  obtain ⟨-, rfl⟩ | ⟨w, rest, hp, rfl⟩ := step_cases h
  · simp
  · cases hd : decode w with
    | error e =>
      have hill : issuesIllegal s := ⟨w, rest, e, hp, hd⟩
      simp [wordEffect_error hd, hill]
    | ok i =>
      have hw := commandEffect_writesOnly i s.osc
      rw [wordEffect_ok hd, issued_of_ok hp hd]
      generalize (commandEffect i s.osc).1 = p at hw
      cases i with
      | nop => cases hw; simp
      | setFreq d => obtain ⟨f, inc, rfl⟩ := hw; simp
      | setSr d => obtain ⟨r, inc, rfl⟩ := hw; simp
      | tick =>
        obtain ⟨v, rfl⟩ | ⟨hrun, out, ph, gen, v, rfl⟩ := hw
        · simp
        · have hfle : fle s.osc.freq ZERO = false := hrun
          simp [hfle]
      | read r => cases hw (decode_read_ne hd); simp
      | _ => obtain ⟨v, rfl⟩ := hw; simp

/-- Settles O26: RUN is the negation of the Idle test. -/
theorem statusBits : Obligations.StatusBits := by
  unfold Obligations.StatusBits
  intro o
  simp only [status_getLsbD]
  exact ⟨rfl, rfl, fun k hk => by rw [if_neg (by omega), if_neg (by omega)]⟩

/-- Settles O50: the constant registers by the reset record, the others by their reset rules. -/
theorem resetValues : Obligations.ResetValues := by
  unfold Obligations.ResetValues
  intro p
  refine ⟨rfl, rfl, rfl, rfl, rfl, rfl, rfl, rfl, rfl, rfl, rfl, rfl, ?freq, ?freqIgnored,
    ?freqNone, ?idle, ?idleNaN, ?idleNone, ?seed, ?zeroSeed⟩
  case freq => exact fun f h hn hpos => resetFreq_given h hn hpos
  case freqIgnored => exact fun f h hbad => resetFreq_ignored h hbad
  case freqNone => exact resetFreq_none
  case idle => exact fun f h hn => (resetIdle_some h).trans (by rw [hn]; rfl)
  case idleNaN => exact fun f h hn => (resetIdle_some h).trans (by rw [hn]; rfl)
  case idleNone => exact resetIdle_none
  case seed => exact fun h => if_neg h
  case zeroSeed => exact fun h => if_pos h

/-- Settles O53: the default parameters are of the kinds that R6 requires. -/
theorem resetStateIsLegal : Obligations.ResetStateIsLegal := by
  unfold Obligations.ResetStateIsLegal
  exact resetWith_legal (p := Config.Params.default) (by decide)

end

section
/-! SUPPORT. The byte transport (R71, R72): the bytes of a word and the word of bytes. -/

namespace Sys2Proof

theorem bytesOfWord_getElem? (w : Word) {k : Nat} (hk : k < 8) :
    (bytesOfWord w)[k]? = some (w.extractLsb' (8 * k) 8) := by
  interval_cases k <;> rfl

theorem bytesOfResponse_getElem? (v : BitVec 32) {k : Nat} (hk : k < 4) :
    (bytesOfResponse v)[k]? = some (v.extractLsb' (8 * k) 8) := by
  interval_cases k <;> rfl

/-- The eight bytes of a word, joined from the highest down, meet at each byte's boundary. -/
theorem wordOfBytes_bytesOfWord_append (w : Word) (rest : List Byte) :
    wordOfBytes (bytesOfWord w ++ rest) = some (w, rest) := by
  refine congrArg (fun v => some (v, rest)) ?_
  simp (disch := rfl) only [BitVec.extractLsb'_append_extractLsb'_eq_extractLsb']
  exact BitVec.extractLsb'_eq_self

/-- Fewer than eight bytes are no word (R72). -/
theorem wordOfBytes_of_length_lt {bs : List Byte} (h : bs.length < 8) : wordOfBytes bs = none := by
  unfold wordOfBytes
  split
  · simp only [List.length_cons] at h
    omega
  · rfl

theorem decodeBytes_of_length_lt {bs : List Byte} (h : bs.length < 8) : decodeBytes bs = none := by
  simp [decodeBytes, wordOfBytes_of_length_lt h]

end Sys2Proof
end

section
/-! SUPPORT. What a command issued twice leaves of `S` (R74). -/

namespace Sys2Proof.Machine

theorem osc_of_exec {i : Instr} {s t : State} (h : exec i s = .next t) :
    t.osc = (commandEffect i s.osc).1 := by
  rw [exec_eq_finish] at h
  cases h
  rfl

theorem osc_of_transact {w : Word} {s t : State} (h : transact w s = .next t) :
    t.osc = (wordEffect w s.osc).1 := by
  rw [transact_eq_finish] at h
  cases h
  rfl

theorem resp_of_exec {i : Instr} {s t : State} (h : exec i s = .next t) :
    t.resp = some (commandEffect i s.osc).2 := by
  rw [exec_eq_finish] at h
  cases h
  rfl

/-- A setter whose write overwrites itself is idempotent: it ignores an operand both times or never. -/
theorem elim_operand_idem {α : Type} {write : Osc → α → Osc}
    (hw : ∀ o v, write (write o v) v = write o v) (operand : Option α) (o : Osc) :
    operand.elim (operand.elim o (write o)) (write (operand.elim o (write o))) =
      operand.elim o (write o) := by
  cases operand with
  | none => rfl
  | some v => exact hw o v

/-- A READ of a register that exists leaves `S` as it is. -/
theorem commandEffect_read_osc {r : RegNum} (hr : r ≠ 15#4) (o : Osc) :
    (commandEffect (.read r) o).1 = o :=
  commandEffect_writesOnly (.read r) o hr

theorem commandEffect_idem {i : Instr} (hi : i ≠ .tick) (o : Osc) :
    (commandEffect i (commandEffect i o).1).1 = (commandEffect i o).1 := by
  cases i with
  | nop => rfl
  | setFreq d =>
    exact elim_operand_idem (write := fun o f => o.setFreq (freqValue f)) (fun _ _ => rfl) _ o
  | setWave d => exact elim_operand_idem (write := Osc.writeWave) (fun _ _ => rfl) _ o
  | setOffset d => exact elim_operand_idem (write := Osc.writeOffset) (fun _ _ => rfl) _ o
  | setDepth d => exact elim_operand_idem (write := Osc.writeDepth) (fun _ _ => rfl) _ o
  | setShape d => exact elim_operand_idem (write := Osc.writeShape) (fun _ _ => rfl) _ o
  | setPw d =>
    exact elim_operand_idem (write := fun o f => o.writePw (pwValue f)) (fun _ _ => rfl) _ o
  | setSmooth d =>
    exact elim_operand_idem (write := fun o f => o.writeScoef (scoefValue f)) (fun _ _ => rfl) _ o
  | setSr d => exact elim_operand_idem (write := Osc.setSr) (fun _ _ => rfl) _ o
  | resetPhase => rfl
  | tick => exact absurd rfl hi
  | read r =>
    by_cases hr : r = 15#4
    · subst hr
      rfl
    · rw [commandEffect_read_osc hr, commandEffect_read_osc hr]

theorem wordEffect_error_idem {w : Word} {e : Illegal} (h : decode w = .error e) (o : Osc) :
    (wordEffect w (wordEffect w o).1).1 = (wordEffect w o).1 := by
  rw [wordEffect_error h, wordEffect_error h]
  rfl

/-- A Running TICK leaves the phase that ADVANCE leaves, whatever the waveform. -/
theorem tickOsc_phase {o : Osc} (h : isIdle o = false) : (tickOsc o).1.phase = nextPhase o := by
  rw [tickOsc_running h, runningTick_eq]

/-- From reset the second TICK moves the phase again: from one increment to two. -/
theorem tickOsc_reset_ne :
    (tickOsc (tickOsc State.reset.osc).1).1 ≠ (tickOsc State.reset.osc).1 := by
  intro h
  have hrun : isIdle State.reset.osc = false := by decide
  have hrun' : isIdle (tickOsc State.reset.osc).1 = false := by decide +kernel
  have hphase := congrArg Osc.phase h
  rw [tickOsc_phase hrun', tickOsc_phase hrun] at hphase
  exact absurd hphase (by decide +kernel)

end Sys2Proof.Machine
end

section
/-! SUPPORT. The statements about the transport and about commands issued twice settled. -/

open Sys2Proof Sys2Proof.Machine

/-- Settles O6: the byte lists index by index, and the round trip through the first eight bytes. -/
theorem byteTransportIsLittleEndian : Obligations.ByteTransportIsLittleEndian := by
  unfold Obligations.ByteTransportIsLittleEndian
  refine ⟨?command, ?response, ?roundTrip, ?short⟩
  case command => exact fun w _ hk => bytesOfWord_getElem? w hk
  case response => exact fun v _ hk => bytesOfResponse_getElem? v hk
  case roundTrip => exact wordOfBytes_bytesOfWord_append
  case short => exact fun _ h => decodeBytes_of_length_lt h

/-- Settles O8: a step of an empty list is the step function's first case (R72, R313). -/
theorem stepWithoutCommandChangesNothing : Obligations.StepWithoutCommandChangesNothing := by
  unfold Obligations.StepWithoutCommandChangesNothing
  exact fun _ h => step_nil h

/-- Settles O22: each command's effect on `S`, composed with itself. Two TICKs from reset show that
TICK is the exception. -/
theorem commandsButTickAreIdempotent : Obligations.CommandsButTickAreIdempotent := by
  unfold Obligations.CommandsButTickAreIdempotent
  refine ⟨?read, ?nop, ?twice, ?event, ?tick, ?illegal⟩
  case read =>
    intro r s t hr h
    rw [osc_of_exec h, commandEffect_read_osc hr]
  case nop => exact fun s t h => osc_of_exec h
  case twice =>
    intro i s t u hi ht hu
    rw [osc_of_exec hu, osc_of_exec ht, commandEffect_idem hi]
  case event => exact fun s t u ht hu => ⟨resp_of_exec ht, resp_of_exec hu⟩
  case tick =>
    refine ⟨State.reset, _, _, exec_eq_finish .tick _, exec_eq_finish .tick _, ?_⟩
    simp only [State.finish_osc, commandEffect]
    exact tickOsc_reset_ne
  case illegal =>
    intro w e s t u hd ht hu
    rw [osc_of_transact hu, osc_of_transact ht]
    exact ⟨by rw [wordEffect_error hd]; rfl, wordEffect_error_idem hd s.osc⟩

end

section
/-! SUPPORT. The decoder by fields: which words decode, to which command, and how the rows of the
opcode table say so (R90-R95). -/

namespace Sys2Proof

/-! ## The decoder and the encoder are inverse (R93) -/

/-- A well-formed command is read back from its word's opcode and operand. -/
theorem decode_encode {i : Instr} (hi : i.wellFormed = true) : decode (encode i) = .ok i := by
  cases i with
  | nop | resetPhase | tick => simp [decode, encode, opcodeOf, operandOf, decodeNoOperand]
  | read r =>
    have hr : r ≠ 15#4 := bne_iff_ne.mp hi
    simp [decode, encode, opcodeOf, operandOf, decodeRead, hr]
  | _ => simp [decode, encode, opcodeOf, operandOf]

/-- A command without operand has `DATA` zero (R92). -/
theorem decodeNoOperand_eq_ok {d : BitVec 32} {i j : Instr} (h : decodeNoOperand d i = .ok j) :
    d = 0#32 ∧ j = i := by
  refine ⟨?_, Machine.decodeNoOperand_ok h⟩
  by_contra hd
  simp [decodeNoOperand, hd] at h

/-- READ's `DATA` is the register's number (R92). -/
theorem decodeRead_eq_ok {d : BitVec 32} {i : Instr} (h : decodeRead d = .ok i) :
    i = .read (regField d) ∧ d = (regField d).setWidth 32 ∧ regField d ≠ 15#4 := by
  obtain ⟨hi, hr⟩ := Machine.decodeRead_ok h
  refine ⟨hi, (setWidth_regField ?_).symm, hr⟩
  by_contra hd
  simp [decodeRead, hd] at h

/-- The fields of a word that decodes are those of the command's word. -/
theorem fields_of_decode_ok {w : Word} {i : Instr} (h : decode w = .ok i) :
    resField w = 0#24 ∧ opField w = opcodeOf i ∧ dataField w = operandOf i ∧
      i.wellFormed = true := by
  unfold decode at h
  split at h
  · cases h
  · rename_i hres
    refine ⟨not_not.mp hres, ?_⟩
    split at h
    case h_1 hop | h_10 hop | h_11 hop =>
      obtain ⟨hd, rfl⟩ := decodeNoOperand_eq_ok h
      exact ⟨BitVec.eq_of_toNat_eq hop, hd, rfl⟩
    case h_12 hop =>
      obtain ⟨rfl, hd, hr⟩ := decodeRead_eq_ok h
      exact ⟨BitVec.eq_of_toNat_eq hop, hd, bne_iff_ne.mpr hr⟩
    case h_13 => cases h
    all_goals
      rename_i hop
      cases h
      exact ⟨BitVec.eq_of_toNat_eq hop, rfl, rfl⟩

theorem encode_of_decode_ok {w : Word} {i : Instr} (h : decode w = .ok i) :
    encode i = w ∧ i.wellFormed = true := by
  obtain ⟨hres, hop, hdata, hwf⟩ := fields_of_decode_ok h
  refine ⟨?_, hwf⟩
  rw [encode, ← hop, ← hdata, encodeFields_of_resField hres]

/-! ## Illegal words (R95) -/

theorem decodeNoOperand_error_iff {d : BitVec 32} {i : Instr} :
    (∃ e, decodeNoOperand d i = .error e) ↔ d ≠ 0#32 := by
  unfold decodeNoOperand
  split <;> simp [*]

theorem decodeRead_error_iff {d : BitVec 32} :
    (∃ e, decodeRead d = .error e) ↔ regHighField d ≠ 0#28 ∨ regField d = 15#4 := by
  unfold decodeRead
  split
  · simp [*]
  · split <;> simp_all

/-- The five cases of R95, one per branch of the decoder that answers an error. -/
theorem decode_error_iff (w : Word) :
    (∃ e, decode w = .error e) ↔
      (resField w ≠ 0#24 ∨
       12 ≤ (opField w).toNat ∨
       ((opField w = 0x00#8 ∨ opField w = 0x09#8 ∨ opField w = 0x0A#8) ∧ dataField w ≠ 0#32) ∨
       (opField w = 0x0B#8 ∧ regHighField (dataField w) ≠ 0#28) ∨
       (opField w = 0x0B#8 ∧ regField (dataField w) = 15#4)) := by
  unfold decode
  split
  · simp [*]
  · rename_i hres
    rw [not_not] at hres
    split
    case h_13 =>
      have h12 : 12 ≤ (opField w).toNat := by
        simp only [imp_false] at *
        omega
      simp [h12]
    all_goals
      rename_i hop
      obtain ⟨-, hop⟩ := BitVec.toNat_eq_nat.mp hop
      simp [hres, hop, decodeNoOperand_error_iff, decodeRead_error_iff]

theorem exists_decode_ok_iff (w : Word) :
    (∃ i, decode w = .ok i) ↔ ¬ ∃ e, decode w = .error e := by
  cases decode w <;> simp

/-- A step on an illegal word sets `S.err` and takes the word (R300). -/
theorem step_of_decode_error {s : Machine.State} {w : Word} {rest : List Word} {e : Illegal}
    (hd : decode w = .error e) (hp : s.pending = w :: rest) :
    Machine.step s = .next
      { osc := { s.osc with err := true }, pending := rest, resp := some Machine.Resp.empty } := by
  rw [Machine.step_eq_wordEffect hp, Machine.wordEffect_error hd]
  rfl

/-! ## Masks -/

theorem opField_and (v w : Word) : opField (v &&& w) = opField v &&& opField w :=
  BitVec.extractLsb'_and

theorem resField_and (v w : Word) : resField (v &&& w) = resField v &&& resField w :=
  BitVec.extractLsb'_and

theorem dataField_and (v w : Word) : dataField (v &&& w) = dataField v &&& dataField w :=
  BitVec.extractLsb'_and

theorem regHighField_and (c d : BitVec 32) :
    regHighField (c &&& d) = regHighField c &&& regHighField d :=
  BitVec.extractLsb'_and

/-- The bits of `DATA` that must be zero under an opcode (R92). -/
def operandZeros (op : BitVec 8) : BitVec 32 :=
  if op = 0x00#8 ∨ op = 0x09#8 ∨ op = 0x0A#8 then BitVec.allOnes 32
  else if op = 0x0B#8 then 0xFFFFFFF0#32
  else 0#32

theorem and_registerMask_eq_zero_iff {d : BitVec 32} :
    d &&& 0xFFFFFFF0#32 = 0#32 ↔ regHighField d = 0#28 := by
  constructor
  · intro h
    calc regHighField d = regHighField d &&& BitVec.allOnes 28 := BitVec.and_allOnes.symm
      _ = regHighField (d &&& 0xFFFFFFF0#32) := (regHighField_and d 0xFFFFFFF0#32).symm
      _ = 0#28 := congrArg regHighField h
  · intro h
    have hreg : ∀ r : RegNum, r.setWidth 32 &&& 0xFFFFFFF0#32 = 0#32 := by decide
    rw [← setWidth_regField h, hreg]

theorem and_operandZeros_eq_zero_iff {op : BitVec 8} {d : BitVec 32} :
    d &&& operandZeros op = 0#32 ↔
      ((op = 0x00#8 ∨ op = 0x09#8 ∨ op = 0x0A#8) → d = 0#32) ∧
      (op = 0x0B#8 → regHighField d = 0#28) := by
  unfold operandZeros
  split
  case isTrue h =>
    have hread : op ≠ 0x0B#8 := by
      rintro rfl
      simp at h
    rw [BitVec.and_allOnes]
    simp [h, hread]
  case isFalse h =>
    split <;> simp [*, and_registerMask_eq_zero_iff]

/-! ## The opcode table (R91) -/

/-- READ 15 by its fields (R97). -/
theorem eq_readNoRegister_iff {w : Word} :
    w = 0x0B0000000000000F#64 ↔
      resField w = 0#24 ∧ opField w = 0x0B#8 ∧ regHighField (dataField w) = 0#28 ∧
        regField (dataField w) = 15#4 := by
  constructor
  · rintro rfl
    decide
  · rintro ⟨hres, hop, hhigh, hreg⟩
    refine word_ext hres (by decide) hop ?_
    rw [← setWidth_regField hhigh, hreg]
    decide

/-- The legal words: `RES` is zero, the opcode is assigned, the operand bits that it does not use are
zero, and the word is not READ 15. -/
theorem decode_ok_iff (w : Word) :
    (∃ i, decode w = .ok i) ↔
      (resField w = 0#24 ∧ (opField w).toNat < 12 ∧
        dataField w &&& operandZeros (opField w) = 0#32 ∧ w ≠ 0x0B0000000000000F#64) := by
  rw [exists_decode_ok_iff, decode_error_iff, and_operandZeros_eq_zero_iff, ne_eq w,
    eq_readNoRegister_iff, ← Nat.not_lt]
  tauto

/-- A row by fields: the opcode is fixed, and so are the operand bits that it does not use. -/
theorem fields_of_row {row : OpcodeRow} (h : row ∈ opcodeTable) :
    (opField row.pattern).toNat < 12 ∧ opField row.mask = BitVec.allOnes 8 ∧
      resField row.pattern = 0#24 ∧ dataField row.pattern = 0#32 ∧
      dataField row.mask = operandZeros (opField row.pattern) := by
  revert row
  decide

theorem row_eq_of_opField_eq :
    ∀ r1 ∈ opcodeTable, ∀ r2 ∈ opcodeTable, opField r1.pattern = opField r2.pattern → r1 = r2 := by
  decide

theorem mnemonicOf_eq_iff {row : OpcodeRow} (h : row ∈ opcodeTable) (i : Instr) :
    mnemonicOf i = row.mnemonic ↔ opcodeOf i = opField row.pattern := by
  revert row
  cases i <;> simp [opcodeTable, mnemonicOf, opcodeOf, opField]

theorem opField_eq_of_fits {row : OpcodeRow} {w : Word} (h : row ∈ opcodeTable)
    (hfit : row.fits w = true) : opField w = opField row.pattern := by
  obtain ⟨-, hmask, -⟩ := fields_of_row h
  rw [← beq_iff_eq.mp hfit, opField_and, hmask, BitVec.and_allOnes]

/-- With `RES` zero, a word fits a row when it has the row's opcode and its zero operand bits. -/
theorem fits_iff {row : OpcodeRow} {w : Word} (h : row ∈ opcodeTable) (hres : resField w = 0#24) :
    row.fits w = true ↔
      opField w = opField row.pattern ∧ dataField w &&& operandZeros (opField w) = 0#32 := by
  obtain ⟨-, hopMask, hresRow, hdataRow, hdataMask⟩ := fields_of_row h
  constructor
  · intro hfit
    have hop := opField_eq_of_fits h hfit
    rw [hop, ← hdataMask, ← dataField_and, beq_iff_eq.mp hfit]
    exact ⟨rfl, hdataRow⟩
  · rintro ⟨hop, hdata⟩
    refine beq_iff_eq.mpr (word_ext ?_ hresRow ?_ ?_)
    · rw [resField_and, hres, BitVec.zero_and]
    · rw [opField_and, hopMask, BitVec.and_allOnes, hop]
    · rw [dataField_and, hdataMask, ← hop, hdata, hdataRow]

/-- The command of a legal word has a row's mnemonic exactly when the word has the row's opcode. -/
theorem exists_decode_ok_mnemonic_iff {row : OpcodeRow} (h : row ∈ opcodeTable) (w : Word) :
    (∃ i, decode w = .ok i ∧ mnemonicOf i = row.mnemonic) ↔
      (∃ i, decode w = .ok i) ∧ opField w = opField row.pattern := by
  rw [← exists_and_right]
  refine exists_congr fun i => and_congr_right fun hd => ?_
  obtain ⟨-, hop, -⟩ := fields_of_decode_ok hd
  rw [mnemonicOf_eq_iff h, hop]

/-- A word is a command of a row exactly when it fits the row, `RES` is zero, and it is not READ 15. -/
theorem decode_ok_row_iff {row : OpcodeRow} (h : row ∈ opcodeTable) (w : Word) :
    (∃ i, decode w = .ok i ∧ mnemonicOf i = row.mnemonic) ↔
      (row.fits w = true ∧ resField w = 0#24 ∧ w ≠ 0x0B0000000000000F#64) := by
  rw [exists_decode_ok_mnemonic_iff h, decode_ok_iff]
  obtain ⟨hlt, -⟩ := fields_of_row h
  constructor
  · rintro ⟨⟨hres, -, hzeros, hne⟩, hop⟩
    exact ⟨(fits_iff h hres).mpr ⟨hop, hzeros⟩, hres, hne⟩
  · rintro ⟨hfit, hres, hne⟩
    obtain ⟨hop, hzeros⟩ := (fits_iff h hres).mp hfit
    exact ⟨⟨hres, hop ▸ hlt, hzeros, hne⟩, hop⟩

end Sys2Proof
end

section
/-! SUPPORT. The encoding's statements settled. -/

open Sys2Proof Sys2Proof.Machine

/-- Settles O2: each field of the command's word reads back what the encoder put there. -/
theorem decodeOfEncodeIsTheCommand : Obligations.DecodeOfEncodeIsTheCommand := by
  unfold Obligations.DecodeOfEncodeIsTheCommand
  exact fun _ hi => decode_encode hi

/-- Settles O3: a word that decodes has `RES` zero and the command's opcode and operand, and these
fields determine the word. -/
theorem encodeOfDecodeIsTheWord : Obligations.EncodeOfDecodeIsTheWord := by
  unfold Obligations.EncodeOfDecodeIsTheWord
  exact fun _ _ h => encode_of_decode_ok h

/-- Settles O4: the decoder's error branches, with READ's two fields of `DATA` as fields of the word,
and the step that meets one. -/
theorem illegalWordsAreTheFiveCases : Obligations.IllegalWordsAreTheFiveCases := by
  unfold Obligations.IllegalWordsAreTheFiveCases
  intro w
  have hhigh : regHighField (dataField w) = w.extractLsb' 4 28 :=
    BitVec.extractLsb'_extractLsb'_of_le (by decide)
  have hreg : regField (dataField w) = w.extractLsb' 0 4 :=
    BitVec.extractLsb'_extractLsb'_of_le (by decide)
  refine ⟨?cases, fun s rest e hd hp => step_of_decode_error hd hp⟩
  case cases =>
    rw [← hhigh, ← hreg]
    exact decode_error_iff w

/-- Settles O5: a row's mnemonic and its mask both say the opcode and the operand bits that must be
zero, and the opcode alone names the row. -/
theorem legalWordsFitTheOpcodeTable : Obligations.LegalWordsFitTheOpcodeTable := by
  unfold Obligations.LegalWordsFitTheOpcodeTable
  refine ⟨fun w row h => decode_ok_row_iff h w, fun w r1 r2 h1 h2 hfit1 hfit2 => ?_⟩
  have hop : opField r1.pattern = opField r2.pattern :=
    (opField_eq_of_fits h1 hfit1).symm.trans (opField_eq_of_fits h2 hfit2)
  exact row_eq_of_opField_eq r1 h1 r2 h2 hop

/-- Settles O1: R101's words are fixed, and each decodes as it says. -/
theorem specWordsDecode : Obligations.SpecWordsDecode := by
  unfold Obligations.SpecWordsDecode
  decide

end

section
/-! SUPPORT. The waveform engine (R120-R130): ShapeCurve by the sign of its shape, the evaluators'
corner phases, their ranges, and the two ramps as negations of each other. -/

namespace Sys2Proof.Machine

/-! ## ShapeCurve (R120, R121) -/

theorem feq_of_fgt {a b : F32} (h : fgt a b = true) : feq a b = false := by
  rw [fgt_iff] at h
  rw [← Bool.not_eq_true, feq_iff]
  omega

theorem feq_of_flt {a b : F32} (h : flt a b = true) : feq a b = false := by
  rw [flt_iff] at h
  rw [← Bool.not_eq_true, feq_iff]
  omega

theorem shapeCurve_of_pos {s : F32} (h : fgt s ZERO = true) (x : F32) :
    shapeCurve x s = Config.powF32 x (fadd ONE (fmul FOUR s)) :=
  shapeCurve_convex (feq_of_fgt h) h

theorem shapeCurve_of_neg {s : F32} (h : flt s ZERO = true) (x : F32) :
    shapeCurve x s = fsub ONE (Config.powF32 (fsub ONE x) (fsub ONE (fmul FOUR s))) :=
  shapeCurve_concave (feq_of_flt h) (not_flt_of_fle (fle_of_flt h))

theorem fsub_ONE_ZERO : fsub ONE ZERO = ONE := by decide
theorem fsub_ONE_ONE : fsub ONE ONE = ZERO := by decide

theorem shapeCurve_zero {s : F32} (hs : isNaN s = false) : shapeCurve ZERO s = ZERO := by
  rcases shape_cases hs with h | ⟨-, h⟩ | ⟨-, -, h⟩
  · exact shapeCurve_neutral h
  · rw [shapeCurve_of_pos h]
    exact Config.pow.base_zero _ (powExp_convex h)
  · have hpow : Config.powF32 ONE (fsub ONE (fmul FOUR s)) = ONE :=
      Config.pow.base_one _ (powExp_concave h)
    rw [shapeCurve_of_neg h, fsub_ONE_ZERO, hpow, fsub_ONE_ONE]

theorem shapeCurve_one {s : F32} (hs : isNaN s = false) : shapeCurve ONE s = ONE := by
  rcases shape_cases hs with h | ⟨-, h⟩ | ⟨-, -, h⟩
  · exact shapeCurve_neutral h
  · rw [shapeCurve_of_pos h]
    exact Config.pow.base_one _ (powExp_convex h)
  · have hpow : Config.powF32 ZERO (fsub ONE (fmul FOUR s)) = ZERO :=
      Config.pow.base_zero _ (powExp_concave h)
    rw [shapeCurve_of_neg h, fsub_ONE_ONE, hpow, fsub_ONE_ZERO]

/-- The range of ShapeCurve is the range of the power, or one minus it (R17 law 1, R121). -/
theorem shapeCurve_between {x s : F32} (hx : inUnit x) (hs : isNaN s = false) :
    fle ZERO (shapeCurve x s) = true ∧ fle (shapeCurve x s) ONE = true := by
  rcases shape_cases hs with h | ⟨-, h⟩ | ⟨-, -, h⟩
  · rw [shapeCurve_neutral h]
    exact ⟨inUnit_zero_le hx, hx.2⟩
  · rw [shapeCurve_of_pos h]
    exact Config.pow.in_range _ _ (powBase_of_inUnit hx) (powExp_convex h)
  · obtain ⟨h0, h1⟩ := Config.pow.in_range _ _ (powBase_of_inUnit (inUnit_fsub_one hx))
      (powExp_concave h)
    rw [shapeCurve_of_neg h]
    exact fsub_one_between h0 h1

/-! ## The triangle's doubled phase (R127) -/

theorem inUnit_clamp01_fmul_two {ph : F32} (hs : signOf ph = false) (hn : isNaN ph = false) :
    inUnit (clamp01 (fmul TWO ph)) :=
  inUnit_clamp01 ((signOf_fmul_two hn).trans hs) (isNaN_fmul_two hn)

/-- On the falling half the doubled phase is one or more, so one less is not negative. -/
theorem inUnit_clamp01_falling {ph : F32} (hs : signOf ph = false) (hn : isNaN ph = false)
    (h : flt (fmul TWO ph) ONE = false) : inUnit (clamp01 (fsub (fmul TWO ph) ONE)) := by
  have hge : fge (fmul TWO ph) ONE = true := (not_flt_iff (isNaN_fmul_two hn) (by decide)).mp h
  obtain ⟨hs', hn'⟩ := fsub_one_nonneg ((signOf_fmul_two hn).trans hs) hge
  exact inUnit_clamp01 hs' hn'

theorem signOf_of_fge_one {x : F32} (h : fge x ONE = true) : signOf x = false := by
  obtain ⟨-, hn, hle⟩ := fge_iff.mp h
  rw [orderKey_ONE] at hle
  refine (signOf_of_fgt_zero (fgt_iff.mpr ⟨by decide, hn, ?_⟩)).1
  rw [orderKey_ZERO]
  omega

/-- From phase one on the doubled phase is two or more, `+inf` when the doubling overflows. -/
theorem fge_fmul_two {ph : F32} (h : fge ph ONE = true) : fge (fmul TWO ph) TWO = true := by
  have hs := signOf_of_fge_one h
  obtain ⟨-, hn, hle⟩ := fge_iff.mp h
  rw [orderKey_ONE, orderKey_nonneg hs] at hle
  have hdouble : double (magOf ph) = magOf ph + 8388608 := if_neg (by omega)
  refine fge_iff.mpr ⟨by decide, isNaN_fmul_two hn, ?_⟩
  rw [fmul_two hn, orderKey_ofParts _ _ (by omega), hs, hdouble,
    show orderKey TWO = 0x40000000 by decide, if_neg (by decide)]
  omega

theorem fge_fsub_one {p : F32} (h : fge p TWO = true) : fge (fsub p ONE) ONE = true := by
  obtain ⟨-, hn, hle⟩ := fge_iff.mp h
  cases hi : isInf p with
  | true =>
    have hp : fsub p ONE = p := fadd_inf_left hi (by decide) (Or.inl (by decide))
    rw [hp]
    exact fle_trans (by decide) h
  | false =>
    refine le_fsub (isFinite_of_not hn hi) isFinite_ONE (by decide) ?_
    rw [orderKey_le_iff, signedUnits_TWO] at hle
    rw [signedUnits_ONE]
    omega

/-! ## Corner phases (R125, R126, R127) -/

theorem rampUpWave_of_ge_one {ph s : F32} (h : fge ph ONE = true) (hs : isNaN s = false) :
    rampUpWave ph s = ONE := by
  rw [rampUpWave, clamp01_of_fge_one h, shapeCurve_one hs]
  decide

theorem rampDownWave_of_ge_one {ph s : F32} (h : fge ph ONE = true) (hs : isNaN s = false) :
    rampDownWave ph s = MINUS_ONE := by
  rw [rampDownWave, clamp01_of_fge_one h, shapeCurve_one hs]
  decide

theorem triangleWave_rising {ph : F32} (h : flt (fmul TWO ph) ONE = true) (s : F32) :
    triangleWave ph s = fsub (fmul TWO (shapeCurve (clamp01 (fmul TWO ph)) s)) ONE := by
  simp [triangleWave, h]

theorem triangleWave_falling {ph : F32} (h : flt (fmul TWO ph) ONE = false) (s : F32) :
    triangleWave ph s =
      fsub ONE (fmul TWO (shapeCurve (clamp01 (fsub (fmul TWO ph) ONE)) s)) := by
  simp [triangleWave, h]

theorem triangleWave_of_ge_one {ph s : F32} (h : fge ph ONE = true) (hs : isNaN s = false) :
    triangleWave ph s = MINUS_ONE := by
  have htwo := fge_fmul_two h
  have hfalling : flt (fmul TWO ph) ONE = false := not_flt_of_fle (fle_trans (by decide) htwo)
  rw [triangleWave_falling hfalling, clamp01_of_fge_one (fge_fsub_one htwo), shapeCurve_one hs]
  decide

theorem clamp01_ZERO : clamp01 ZERO = ZERO := by decide
theorem fmul_TWO_ZERO : fmul TWO ZERO = ZERO := by decide

theorem rampUpWave_zero {s : F32} (hs : isNaN s = false) : rampUpWave ZERO s = MINUS_ONE := by
  rw [rampUpWave, clamp01_ZERO, shapeCurve_zero hs]
  decide

theorem rampDownWave_zero {s : F32} (hs : isNaN s = false) : rampDownWave ZERO s = ONE := by
  rw [rampDownWave, clamp01_ZERO, shapeCurve_zero hs]
  decide

theorem triangleWave_zero {s : F32} (hs : isNaN s = false) : triangleWave ZERO s = MINUS_ONE := by
  rw [triangleWave_rising (by decide), fmul_TWO_ZERO, clamp01_ZERO, shapeCurve_zero hs]
  decide

/-- At phase 0.5 the falling half begins, with ShapeCurve at `+0.0`. -/
theorem triangleWave_half {s : F32} (hs : isNaN s = false) : triangleWave HALF s = ONE := by
  have harg : clamp01 (fsub (fmul TWO HALF) ONE) = ZERO := by decide
  rw [triangleWave_falling (by decide), harg, shapeCurve_zero hs]
  decide

/-! ## Exchanged subtraction (R126) -/

/-- The difference of distinct finite values is not zero: subnormals are kept (R11). -/
theorem isZero_fsub_of_ne {a b : F32} (ha : isFinite a = true) (hb : isFinite b = true)
    (h : signedUnits a ≠ signedUnits b) : isZero (fsub a b) = false := by
  have hpos : 1 ≤ magOf (fsub a b) := by
    rw [fsub, magOf_fadd ha (by rwa [isFinite_fneg]), signedUnits_fneg]
    refine le_roundUnits (by decide) (by decide) ?_
    rw [magUnits_small (by decide)]
    omega
  rw [← Bool.not_eq_true, isZero_iff]
  omega

/-- The difference of distinct finite values changes only its sign when they are exchanged. -/
theorem fsub_swap {a b : F32} (ha : isFinite a = true) (hb : isFinite b = true)
    (h : signedUnits a ≠ signedUnits b) : fsub b a = fneg (fsub a b) := by
  have hab : signedUnits a + signedUnits (fneg b) = signedUnits a - signedUnits b := by
    rw [signedUnits_fneg, Int.sub_eq_add_neg]
  have hba : signedUnits b + signedUnits (fneg a) = -(signedUnits a - signedUnits b) := by
    rw [signedUnits_fneg]
    omega
  rw [fsub, fsub, fadd_finite hb (by rwa [isFinite_fneg]) (by omega),
    fadd_finite ha (by rwa [isFinite_fneg]) (by omega), hab, hba,
    fneg_ofParts _ (roundUnits_lt_sign _ _), Int.natAbs_neg]
  congr 1
  rw [← decide_not, decide_eq_decide]
  omega

/-- Values of one differ from it by `+0.0`, on either side. -/
theorem fsub_one_of_units_eq {a : F32} (ha : isFinite a = true)
    (h : signedUnits a = signedUnits ONE) : fsub a ONE = ZERO ∧ fsub ONE a = ZERO := by
  have hs : signOf a = false := signOf_of_fge_one (fge_iff.mpr
    ⟨by decide, isNaN_of_isFinite ha, ((orderKey_eq_iff a ONE).mpr h).ge⟩)
  refine ⟨?_, ?_⟩
  · rw [fsub_zero ha isFinite_ONE h, hs]
    rfl
  · rw [fsub_zero isFinite_ONE ha h.symm]
    rfl

/-! ## Ranges (R124 to R130) -/

theorem isFinite_fmul_two_shapeCurve {x s : F32} (hx : inUnit x) (hs : isNaN s = false) :
    isFinite (fmul TWO (shapeCurve x s)) = true := by
  obtain ⟨h0, h1⟩ := shapeCurve_between hx hs
  obtain ⟨hm, -, -⟩ := between_zero_one h0 h1
  exact isFinite_fmul_two (by omega)

theorem inBipolar_rampUpWave {ph s : F32} (hph : signOf ph = false) (hn : isNaN ph = false)
    (hs : isNaN s = false) : inBipolar (rampUpWave ph s) := by
  obtain ⟨h0, h1⟩ := shapeCurve_between (inUnit_clamp01 hph hn) hs
  exact inBipolar_twice_minus_one h0 h1

theorem inBipolar_rampDownWave {ph s : F32} (hph : signOf ph = false) (hn : isNaN ph = false)
    (hs : isNaN s = false) : inBipolar (rampDownWave ph s) := by
  obtain ⟨h0, h1⟩ := shapeCurve_between (inUnit_clamp01 hph hn) hs
  exact inBipolar_one_minus_twice h0 h1

theorem inBipolar_triangleWave {ph s : F32} (hph : signOf ph = false) (hn : isNaN ph = false)
    (hs : isNaN s = false) : inBipolar (triangleWave ph s) := by
  cases h : flt (fmul TWO ph) ONE with
  | true =>
    obtain ⟨h0, h1⟩ := shapeCurve_between (inUnit_clamp01_fmul_two hph hn) hs
    rw [triangleWave_rising h]
    exact inBipolar_twice_minus_one h0 h1
  | false =>
    obtain ⟨h0, h1⟩ := shapeCurve_between (inUnit_clamp01_falling hph hn h) hs
    rw [triangleWave_falling h]
    exact inBipolar_one_minus_twice h0 h1

theorem squareWave_of_flt {ph pw : F32} (h : flt ph pw = true) : squareWave ph pw = ONE := by
  simp [squareWave, h]

theorem squareWave_of_not_flt {ph pw : F32} (h : flt ph pw = false) :
    squareWave ph pw = MINUS_ONE := by
  simp [squareWave, h]

theorem squareWave_cases (ph pw : F32) : squareWave ph pw = ONE ∨ squareWave ph pw = MINUS_ONE := by
  cases h : flt ph pw with
  | true => exact Or.inl (squareWave_of_flt h)
  | false => exact Or.inr (squareWave_of_not_flt h)

theorem inBipolar_squareWave (ph pw : F32) : inBipolar (squareWave ph pw) := by
  rcases squareWave_cases ph pw with h | h
  · rw [h]
    decide
  · rw [h]
    decide

/-- The sine's value is in [-1, 1] at a finite argument and the canonical NaN at any other (R16 laws
1 and 3). -/
theorem sineWave_cases (ph : F32) :
    inBipolar (sineWave ph) ∨ (isFinite (fmul TWO_PI ph) = false ∧ sineWave ph = QNAN) := by
  cases h : isFinite (fmul TWO_PI ph) with
  | true => exact Or.inl (Config.sin.finite_in_range _ h)
  | false => exact Or.inr ⟨rfl, Config.sin.not_finite _ h⟩

/-! ## A finite phase with the sine's NaN -/

/-- SET_SR 1.0, SET_FREQ 2^127, TICK: the phase becomes the increment, 2^127. -/
def sineOverflowWords : List Word :=
  [encode (.setSr ONE), encode (.setFreq 0x7F000000#32), encode .tick]

theorem sineOverflow_wave : (observe sineOverflowWords State.reset).2.osc.wave = .sine := by
  decide +kernel

theorem sineOverflow_phase :
    (observe sineOverflowWords State.reset).2.osc.phase = 0x7F000000#32 := by
  decide +kernel

/-- Two pi times 2^127 rounds to `+inf`, so the sine is NaN there. -/
theorem sineWave_overflow : sineWave 0x7F000000#32 = QNAN :=
  Config.sin.not_finite _ (by decide +kernel)

end Sys2Proof.Machine
end

section
/-! SUPPORT. The waveform engine's statements settled. -/

open Sys2Proof Sys2Proof.Machine

/-- Settles O33: one branch for each sign of the shape; at the end points the power is fixed by R17
laws 3 and 4. -/
theorem shapeCurveIdentityAndEndPoints : Obligations.ShapeCurveIdentityAndEndPoints := by
  unfold Obligations.ShapeCurveIdentityAndEndPoints
  refine ⟨?identity, ?branches, ?endPoints⟩
  case identity =>
    exact fun _ => ⟨shapeCurve_neutral (by decide), shapeCurve_neutral (by decide)⟩
  case branches => exact fun x _ => ⟨fun h => shapeCurve_of_pos h x, fun h => shapeCurve_of_neg h x⟩
  case endPoints => exact fun _ hs => ⟨shapeCurve_zero hs, shapeCurve_one hs⟩

/-- Settles O34: base and exponent of each branch are in the power's domain, so its range is that of
R17 law 1; the evaluators' arguments are clamped values that are not negative. -/
theorem shapeCurveStaysInDomain : Obligations.ShapeCurveStaysInDomain := by
  unfold Obligations.ShapeCurveStaysInDomain
  refine ⟨fun x s hx hs => ⟨?convex, ?concave, shapeCurve_between hx hs⟩, ?arguments⟩
  case convex => exact fun h => ⟨shapeCurve_of_pos h x, powBase_of_inUnit hx, powExp_convex h⟩
  case concave =>
    exact fun h =>
      ⟨shapeCurve_of_neg h x, powBase_of_inUnit (inUnit_fsub_one hx), powExp_concave h⟩
  case arguments =>
    exact fun ph hph hn => ⟨inUnit_clamp01 hph hn, inUnit_clamp01_fmul_two hph hn,
      inUnit_clamp01_falling hph hn⟩

/-- Settles O35: at each corner ShapeCurve's argument is `+0.0` or 1.0, where it is fixed. -/
theorem rampAndTriangleCorners : Obligations.RampAndTriangleCorners := by
  unfold Obligations.RampAndTriangleCorners
  exact fun s hs => ⟨rampUpWave_zero hs, rampDownWave_zero hs, triangleWave_zero hs,
    triangleWave_half hs, fun ph h => ⟨rampUpWave_of_ge_one h hs, rampDownWave_of_ge_one h hs,
      triangleWave_of_ge_one h hs⟩⟩

/-- Settles O36: the ramps are the two differences of one and the doubled curve, both `+0.0` where
these are equal and never zero where they are not. -/
theorem rampDownNegatesRampUp : Obligations.RampDownNegatesRampUp := by
  unfold Obligations.RampDownNegatesRampUp
  intro ph s hph hn hs
  have hfin := isFinite_fmul_two_shapeCurve (inUnit_clamp01 hph hn) hs
  by_cases heq : signedUnits (fmul TWO (shapeCurve (clamp01 ph) s)) = signedUnits ONE
  · obtain ⟨hup, hdown⟩ := fsub_one_of_units_eq hfin heq
    refine ⟨fun _ => ⟨hup, hdown⟩, fun hnz => ?_⟩
    rw [rampUpWave, hup] at hnz
    exact absurd hnz (by decide)
  · refine ⟨fun hz => ?_, fun _ => fsub_swap hfin isFinite_ONE heq⟩
    rw [rampUpWave, isZero_fsub_of_ne hfin isFinite_ONE heq] at hz
    exact absurd hz (by decide)

/-- Settles O38: one range for each evaluator, over the legal phase, shape and held value. -/
theorem waveformIsBipolarOrSineNaN : Obligations.WaveformIsBipolarOrSineNaN := by
  unfold Obligations.WaveformIsBipolarOrSineNaN
  intro o hlegal
  obtain ⟨-, ⟨-, -, hshape⟩, -, -, -, ⟨hsign, hphase⟩, -, hheld, -⟩ := hlegal
  cases o.wave with
  | sine => exact (sineWave_cases o.phase).imp_right fun h => ⟨rfl, h⟩
  | rampUp => exact Or.inl (inBipolar_rampUpWave hsign hphase hshape)
  | rampDown => exact Or.inl (inBipolar_rampDownWave hsign hphase hshape)
  | triangle => exact Or.inl (inBipolar_triangleWave hsign hphase hshape)
  | square => exact Or.inl (inBipolar_squareWave o.phase o.pw)
  | randomHold => exact Or.inl hheld

/-- Refutes O39: after SET_SR 1.0, SET_FREQ 2^127 and a TICK the phase is 2^127, which is finite, and
the sine is NaN. -/
theorem not_sineNaNOnlyAtInfinitePhase : ¬ Obligations.SineNaNOnlyAtInfinitePhase := by
  unfold Obligations.SineNaNOnlyAtInfinitePhase
  intro h
  rcases h sineOverflowWords with ⟨hlow, -⟩ | ⟨-, hinf, -⟩
  · rw [sineOverflow_wave, sineOverflow_phase, waveValue, sineWave_overflow] at hlow
    exact absurd hlow (by decide)
  · rw [sineOverflow_phase] at hinf
    exact absurd hinf (by decide)

/-- Settles O32: each arm of the dispatch is its evaluator's definition. -/
theorem waveDispatch : Obligations.WaveDispatch := by
  unfold Obligations.WaveDispatch
  intro ph s pw held
  exact ⟨rfl, rfl, rfl, rfl, rfl, rfl⟩

/-- Settles O37: the comparison is strict, so it fails at a tie. -/
theorem squareTieBreak : Obligations.SquareTieBreak := by
  unfold Obligations.SquareTieBreak
  intro ph pw
  refine ⟨squareWave_of_flt, fun h => squareWave_of_not_flt (not_flt_of_fle h), fun hn => ?_,
    squareWave_cases ph pw⟩
  exact squareWave_of_not_flt ((not_flt_iff hn hn).mpr (fle_iff.mpr ⟨hn, hn, le_refl _⟩))

end

section
/-! SUPPORT. The phase accumulator (R150, R151): one taken from a sum below two, and what ADVANCE
does at an infinite phase or increment. -/

namespace Sys2Proof.Machine

/-! ## Exact differences -/

theorem orderKey_TWO : orderKey TWO = 0x40000000 := by decide

theorem signedUnits_of_sign {x : F32} (h : signOf x = false) :
    signedUnits x = magUnits (magOf x) := by
  simp [signedUnits_eq, h]

/-- A sum that is not negative and fits a significand of 24 bits is not rounded. -/
theorem signedUnits_fadd_shift {a b : F32} (ha : isFinite a = true) (hb : isFinite b = true)
    {t k : Nat} (ht : t < 16777216) (hk : k ≤ 252)
    (h : signedUnits a + signedUnits b = (t * 2 ^ k : Nat)) :
    signedUnits (fadd a b) = (t * 2 ^ k : Nat) := by
  obtain ⟨hexact, -⟩ := magUnits_roundUnits_shift t k ht hk
  have hmag : magUnits (magOf (fadd a b)) = t * 2 ^ k := by
    rw [magOf_fadd ha hb, h, Int.natAbs_natCast, hexact]
  have hle : fle ZERO (fadd a b) = true :=
    le_fadd ha hb (by decide) (by rw [signedUnits_ZERO, h]; positivity)
  have hnonneg := (orderKey_le_iff _ _).mp (fle_iff.mp hle).2.2
  rw [signedUnits_ZERO] at hnonneg
  have habs := natAbs_signedUnits (fadd a b)
  omega

/-- From one up to two a value is a significand times 2^126 units, so one is taken from it without
rounding. -/
theorem signedUnits_fsub_one {x : F32} (h1 : fge x ONE = true) (h2 : flt x TWO = true) :
    signedUnits (fsub x ONE) = signedUnits x - signedUnits ONE := by
  have hs := signOf_of_fge_one h1
  obtain ⟨-, -, hlo⟩ := fge_iff.mp h1
  obtain ⟨-, -, hhi⟩ := flt_iff.mp h2
  rw [orderKey_ONE, orderKey_nonneg hs] at hlo
  rw [orderKey_TWO, orderKey_nonneg hs] at hhi
  have hf : isFinite x = true := (isFinite_iff x).mpr (by omega)
  obtain ⟨u, hu⟩ : ∃ u, magOf x = 126 * 8388608 + (8388608 + u) :=
    ⟨magOf x - 127 * 8388608, by omega⟩
  have hx : signedUnits x = ((8388608 + u) * 2 ^ 126 : Nat) := by
    rw [signedUnits_of_sign hs, hu, magUnits_binade 126 _ (Or.inr (by omega)) (by omega)]
  have hdiff : signedUnits x + signedUnits (fneg ONE) = (u * 2 ^ 126 : Nat) := by
    rw [hx, signedUnits_fneg, signedUnits_ONE]
    push_cast
    omega
  rw [fsub, signedUnits_fadd_shift hf (by decide) (by omega) (by decide) hdiff, ← hdiff,
    signedUnits_fneg, sub_eq_add_neg]

/-! ## Phase and increment below one (R151) -/

/-- A value below one is at most one less 2^-24. -/
theorem units_below_one {x : F32} (h0 : fle ZERO x = true) (h1 : flt x ONE = true) :
    isFinite x = true ∧ 0 ≤ signedUnits x ∧ signedUnits x ≤ 2 ^ 149 - 2 ^ 125 := by
  obtain ⟨hmag, hnonneg, -⟩ := between_zero_one h0 (fle_of_flt h1)
  obtain ⟨-, -, hlt⟩ := flt_iff.mp h1
  have hpred : orderKey x ≤ orderKey 0x3F7FFFFF#32 := by
    rw [orderKey_ONE] at hlt
    rw [show orderKey 0x3F7FFFFF#32 = 0x3F7FFFFF by decide]
    omega
  have hunits := (orderKey_le_iff _ _).mp hpred
  rw [show signedUnits 0x3F7FFFFF#32 = 2 ^ 149 - 2 ^ 125 by decide] at hunits
  exact ⟨isFinite_of_mag_le_one hmag, hnonneg, hunits⟩

theorem inHalfOpenUnit_zero_le {x : F32} (h : inHalfOpenUnit x) : fle ZERO x = true :=
  inUnit_zero_le ⟨h.1, fle_of_flt h.2⟩

section
variable {o : Osc} (hphase : inHalfOpenUnit o.phase) (h0 : fle ZERO o.pinc = true)
  (h1 : flt o.pinc ONE = true)
include hphase h0 h1

/-- The rounded sum of a phase and an increment below one: at most two less 2^-23. -/
theorem phaseSum_below_one :
    signOf (phaseSum o) = false ∧ isFinite (phaseSum o) = true ∧
      fle (phaseSum o) 0x3FFFFFFF#32 = true := by
  obtain ⟨hfp, hp0, hp1⟩ := units_below_one (inHalfOpenUnit_zero_le hphase) hphase.2
  obtain ⟨hfi, hi0, hi1⟩ := units_below_one h0 h1
  have hs : signOf (phaseSum o) = false :=
    signOf_fadd_nonneg hfp hfi (by omega) (by rw [hphase.1, Bool.false_and])
  have hle : fle (phaseSum o) 0x3FFFFFFF#32 = true := by
    refine fadd_le hfp hfi (by decide) ?_
    rw [show signedUnits 0x3FFFFFFF#32 = 2 * (2 ^ 149 - 2 ^ 125) by decide]
    omega
  obtain ⟨-, -, hkey⟩ := fle_iff.mp hle
  rw [orderKey_nonneg hs, show orderKey 0x3FFFFFFF#32 = 0x3FFFFFFF by decide] at hkey
  exact ⟨hs, (isFinite_iff _).mpr (by omega), hle⟩

theorem phaseSum_lt_two : flt (phaseSum o) TWO = true := by
  obtain ⟨-, -, hle⟩ := phaseSum_below_one hphase h0 h1
  obtain ⟨hn, -, hkey⟩ := fle_iff.mp hle
  exact flt_iff.mpr ⟨hn, by decide, lt_of_le_of_lt hkey (by decide)⟩

theorem nextPhase_inHalfOpenUnit : inHalfOpenUnit (nextPhase o) := by
  obtain ⟨hs, hf, -⟩ := phaseSum_below_one hphase h0 h1
  have hlt := phaseSum_lt_two hphase h0 h1
  unfold nextPhase wraps
  cases hh : phaseHolds o with
  | true => exact hphase
  | false =>
    cases hge : fge (phaseSum o) ONE with
    | false => exact ⟨hs, (not_fle_iff (by decide) (isNaN_of_isFinite hf)).mp hge⟩
    | true =>
      obtain ⟨hs', hn'⟩ := fsub_one_nonneg hs hge
      have hunits : signedUnits (fsub (phaseSum o) ONE) < signedUnits ONE := by
        rw [signedUnits_fsub_one hge hlt, signedUnits_ONE]
        have := (orderKey_lt_iff _ _).mp (flt_iff.mp hlt).2.2
        rw [signedUnits_TWO] at this
        omega
      exact ⟨hs', flt_iff.mpr ⟨hn', by decide, (orderKey_lt_iff _ _).mpr hunits⟩⟩

end

/-! ## Infinite phase and increment (R150) -/

theorem phaseHolds_of_not_zero {o : Osc} (h : feq o.pinc ZERO = false) : phaseHolds o = false := by
  simp [phaseHolds, h]

/-- A value of zero or more has no sign, or is `-0.0`. -/
theorem signOf_or_neg_zero {x : F32} (h : fle ZERO x = true) :
    signOf x = false ∨ x = NEG_ZERO := by
  obtain ⟨-, -, hkey⟩ := fle_iff.mp h
  cases hs : signOf x with
  | false => exact Or.inl rfl
  | true =>
    rw [orderKey_ZERO, orderKey, hs, if_pos rfl] at hkey
    exact Or.inr (ext_sign_mag hs (show magOf x = 0 by omega))

/-- An infinite sum stays infinite when one is taken from it. -/
theorem advance_of_sum_inf {o : Osc} (hholds : phaseHolds o = false) (hsum : phaseSum o = INF) :
    advance o = ({ o with phase := INF }, true) := by
  have hge : fge INF ONE = true := by decide
  have hsub : fsub INF ONE = INF := by decide
  rw [advance_moves hholds, hsum, hge, hsub, if_pos rfl]

theorem advance_pinc_inf {o : Osc} (hs : signOf o.phase = false) (hn : isNaN o.phase = false)
    (hinc : o.pinc = INF) : advance o = ({ o with phase := INF }, true) := by
  have hholds : phaseHolds o = false := phaseHolds_of_not_zero (by rw [hinc]; decide)
  refine advance_of_sum_inf hholds ?_
  rw [phaseSum, hinc]
  exact fadd_inf_right (by decide) hn (Or.inr hs)

theorem advance_phase_inf {o : Osc} (hphase : o.phase = INF) (hinc : fle ZERO o.pinc = true) :
    advance o = (o, true) := by
  have hholds : phaseHolds o = false := by
    have : isFinite INF = false := by decide
    simp [phaseHolds, hphase, this]
  have hsum : phaseSum o = INF := by
    rw [phaseSum, hphase]
    rcases signOf_or_neg_zero hinc with hs | hz
    · exact fadd_inf_left (by decide) (fle_iff.mp hinc).2.1 (Or.inr hs)
    · rw [hz]
      decide
  rw [advance_of_sum_inf hholds hsum, ← hphase]

/-! ## The legal increment (R39) and the Idle test (R181) -/

theorem fdiv_neg_zero {r : F32} (hf : isFinite r = true) (hpos : fgt r ZERO = true) :
    fdiv NEG_ZERO r = NEG_ZERO := by
  obtain ⟨-, hs⟩ := fdiv_pos_divisor (a := NEG_ZERO) (by decide) hf hpos
  have hr : isZero r = false := by
    obtain ⟨-, -, hkey⟩ := fgt_iff.mp hpos
    rw [orderKey_ZERO, orderKey_nonneg (signOf_of_fgt_zero hpos).1] at hkey
    rw [← Bool.not_eq_true, isZero_iff]
    omega
  refine ext_sign_mag hs ?_
  rw [fdiv_finite (by decide) hf hr, magOf_ofParts _ _ (roundUnits_lt_sign _ _),
    show unitsOf NEG_ZERO = 0 by decide, Nat.zero_mul, roundUnits_zero _ (unitsOf_pos hr)]
  rfl

/-- A legal frequency has no sign, or is `-0.0`. -/
theorem Osc.Legal.freq_cases {o : Osc} (h : o.Legal) :
    signOf o.freq = false ∨ o.freq = NEG_ZERO := by
  obtain ⟨⟨hn, hlt⟩, -⟩ := h
  exact signOf_or_neg_zero ((not_flt_iff hn (by decide)).mp hlt)

theorem Osc.Legal.pinc_range {o : Osc} (h : o.Legal) :
    isNaN o.pinc = false ∧ (signOf o.pinc = false ∨ o.pinc = NEG_ZERO) := by
  have hcases := h.freq_cases
  obtain ⟨⟨hfreq, -⟩, -, -, -, ⟨hfin, hpos⟩, -, hpinc, -⟩ := h
  obtain ⟨hn, hs⟩ := fdiv_pos_divisor hfreq hfin hpos
  rw [hpinc]
  refine ⟨hn, hcases.imp (fun hsign => hs.trans hsign) fun hz => ?_⟩
  rw [hz]
  exact fdiv_neg_zero hfin hpos

theorem Osc.Legal.isIdle_iff {o : Osc} (h : o.Legal) :
    isIdle o = true ↔ (o.freq = ZERO ∨ o.freq = NEG_ZERO) := by
  constructor
  · intro hidle
    refine h.freq_cases.imp_left fun hs => ?_
    obtain ⟨-, -, hkey⟩ := fle_iff.mp hidle
    rw [orderKey_nonneg hs, orderKey_ZERO] at hkey
    exact eq_of_sign_mag hs (by omega)
  · rintro (hz | hz)
    · rw [isIdle, hz]
      decide
    · rw [isIdle, hz]
      decide

end Sys2Proof.Machine
end

section
/-! SUPPORT. The pseudo-random hold (R155 to R159): the value drawn, and when a draw happens. -/

namespace Sys2Proof.Machine

/-! ## The value drawn (R157) -/

/-- A whole number of 2^-23 that fits a significand of 24 bits is not rounded, under either sign. -/
theorem signedUnits_ofParts_shift (neg : Bool) {k : Nat} (hk : k < 16777216) :
    isFinite (ofParts neg (roundUnits (k * 2 ^ 126) 1)) = true ∧
      signedUnits (ofParts neg (roundUnits (k * 2 ^ 126) 1)) =
        if neg then -((k * 2 ^ 126 : Nat) : Int) else ((k * 2 ^ 126 : Nat) : Int) := by
  obtain ⟨hval, hlt⟩ := magUnits_roundUnits_shift k 126 hk (by decide)
  rw [isFinite_iff, magOf_ofParts _ _ (roundUnits_lt_sign _ _),
    signedUnits_ofParts _ _ (roundUnits_lt_sign _ _), hval]
  exact ⟨hlt, rfl⟩

/-- The value drawn is such a number, of `s[31:8] - 2^23`. -/
theorem signedUnits_prbsValue (s : U32) :
    isFinite (prbsValue s) = true ∧
      signedUnits (prbsValue s) = (((s.toNat / 256 : Nat) : Int) - 8388608) * 2 ^ 126 := by
  have hu : (s.extractLsb' 8 24).toNat = s.toNat / 256 := by
    rw [BitVec.extractLsb'_toNat, Nat.shiftRight_eq_div_pow]
    omega
  have hs := s.isLt
  dsimp only [prbsValue]
  rw [hu]
  split
  · obtain ⟨hf, hv⟩ := signedUnits_ofParts_shift false (k := s.toNat / 256 - 8388608) (by omega)
    refine ⟨hf, ?_⟩
    rw [hv, if_neg Bool.false_ne_true]
    push_cast
    omega
  · obtain ⟨hf, hv⟩ := signedUnits_ofParts_shift true (k := 8388608 - s.toNat / 256) (by omega)
    refine ⟨hf, ?_⟩
    rw [hv, if_pos rfl]
    push_cast
    omega

theorem prbsValue_le (s : U32) : fle (prbsValue s) 0x3F7FFFFE#32 = true := by
  obtain ⟨hf, hv⟩ := signedUnits_prbsValue s
  have hu : ((s.toNat / 256 : Nat) : Int) - 8388608 ≤ 8388607 := by
    have := s.isLt
    omega
  refine fle_iff.mpr ⟨isNaN_of_isFinite hf, by decide, (orderKey_le_iff _ _).mpr ?_⟩
  rw [hv, show signedUnits 0x3F7FFFFE#32 = 8388607 * 2 ^ 126 by decide]
  exact mul_le_mul_of_nonneg_right hu (by positivity)

/-! ## Draws (R158, R159) -/

/-- A TICK draws at a Running wrap under RandomHold, or leaves the generator and the held value. -/
theorem tickOsc_draw (o : Osc) :
    ((tickOsc o).1.prbs = o.prbs ∧ (tickOsc o).1.held = o.held) ∨
    (isIdle o = false ∧ o.wave = .randomHold ∧ (tickOsc o).2.wrap = true ∧
      (tickOsc o).1.prbs = lfsrStep o.prbs ∧ (tickOsc o).1.held = prbsValue (lfsrStep o.prbs)) := by
  cases hi : isIdle o with
  | true =>
    rw [tickOsc_idle hi]
    exact Or.inl ⟨rfl, rfl⟩
  | false =>
    rw [tickOsc_running hi, runningTick_eq]
    dsimp only
    cases hd : wraps o && o.wave == .randomHold with
    | false => exact Or.inl ⟨if_neg Bool.false_ne_true, if_neg Bool.false_ne_true⟩
    | true =>
      obtain ⟨hw, hr⟩ := Bool.and_eq_true_iff.mp hd
      exact Or.inr ⟨rfl, beq_iff_eq.mp hr, hw, if_pos rfl, if_pos rfl⟩

theorem tickOsc_wave (o : Osc) : (tickOsc o).1.wave = o.wave := by
  obtain ⟨v, h⟩ | ⟨-, out, ph, gen, v, h⟩ := tickOsc_writesOnly o
  · rw [h, Osc.writePhase]
  · rw [h]

/-- A block without a wrap draws nothing and selects no other waveform (R159). -/
theorem render_without_wrap (n : Nat) (s : State)
    (h : ∀ r ∈ (observe (renderWords n) s).1, r.wrap = false) :
    (observe (renderWords n) s).2.osc.wave = s.osc.wave ∧
      (observe (renderWords n) s).2.osc.prbs = s.osc.prbs ∧
      (observe (renderWords n) s).2.osc.held = s.osc.held := by
  induction n generalizing s with
  | zero => exact ⟨rfl, rfl, rfl⟩
  | succ n ih =>
    rw [renderWords_succ, observe_cons, wordEffect_tickWord, List.forall_mem_cons] at h
    obtain ⟨hfirst, hrest⟩ := h
    obtain ⟨hwave, hprbs, hheld⟩ := ih _ hrest
    rw [renderWords_succ, observe_cons, wordEffect_tickWord]
    rcases tickOsc_draw s.osc with ⟨hp, hv⟩ | ⟨-, -, hwrap, -⟩
    · exact ⟨hwave.trans (tickOsc_wave _), hprbs.trans hp, hheld.trans hv⟩
    · rw [hwrap] at hfirst
      cases hfirst

theorem exists_word_of_issued {s : State} {i : Instr} (h : issued s = some i) :
    ∃ w rest, s.pending = w :: rest ∧ decode w = .ok i := by
  unfold issued at h
  split at h
  · cases h
  · split at h
    · cases h
      exact ⟨_, _, ‹_›, ‹_›⟩
    · cases h

/-- A step that meets a command leaves that command's effect and response. -/
theorem step_of_issued {s t : State} {i : Instr} (hi : issued s = some i) (h : step s = .next t) :
    t.osc = (commandEffect i s.osc).1 ∧ t.resp = some (commandEffect i s.osc).2 := by
  obtain ⟨w, rest, hp, hd⟩ := exists_word_of_issued hi
  rw [step_eq_wordEffect hp, wordEffect_ok hd] at h
  cases h
  exact ⟨rfl, rfl⟩

end Sys2Proof.Machine
end

section
/-! SUPPORT. The scaler and the smoother (R160 to R164): sums with a value that is not finite, and
with a zero. -/

namespace Sys2Proof.Machine

/-! ## Values that are not finite -/

theorem isInf_of_not_finite {x : F32} (hf : isFinite x = false) (hn : isNaN x = false) :
    isInf x = true := by
  rw [isFinite_eq_false_iff] at hf
  rw [isNaN_eq_false_iff] at hn
  rw [isInf_iff]
  omega

/-- A sum with an infinity is that infinity or is invalid, in either order of the operands. -/
theorem fadd_inf_cases {a : F32} (ha : isInf a = true) (b : F32) :
    (fadd a b = QNAN ∧ fadd b a = QNAN) ∨ (fadd a b = a ∧ fadd b a = a) := by
  cases hn : isNaN b with
  | true => exact Or.inl ⟨fadd_of_nan (Or.inr hn), fadd_of_nan (Or.inl hn)⟩
  | false =>
    by_cases h : isFinite b = true ∨ signOf b = signOf a
    · exact Or.inr ⟨fadd_inf_left ha hn h, fadd_inf_right ha hn h⟩
    · obtain ⟨hf, hs⟩ := not_or.mp h
      have hb := isInf_of_not_finite (Bool.eq_false_iff.mpr hf) hn
      exact Or.inl ⟨fadd_inf_opposite ha hb (Ne.symm hs), fadd_inf_opposite hb ha hs⟩

theorem fadd_comm (a b : F32) : fadd a b = fadd b a := by
  by_cases hn : isNaN a = true ∨ isNaN b = true
  · rw [fadd_of_nan hn, fadd_of_nan hn.symm]
  · rw [not_or, Bool.not_eq_true, Bool.not_eq_true] at hn
    cases hia : isInf a with
    | true => rcases fadd_inf_cases hia b with ⟨hl, hr⟩ | ⟨hl, hr⟩ <;> rw [hl, hr]
    | false =>
      cases hib : isInf b with
      | true => rcases fadd_inf_cases hib a with ⟨hl, hr⟩ | ⟨hl, hr⟩ <;> rw [hl, hr]
      | false =>
        unfold fadd
        rw [Int.add_comm (signedUnits b), Bool.and_comm (signOf b)]
        simp only [hn, hia, hib, Bool.or_false, Bool.false_eq_true, if_false]

/-- A sum with an operand that is not finite is not finite. -/
theorem isFinite_fadd_of_not_finite {a : F32} (h : isFinite a = false) (b : F32) :
    isFinite (fadd a b) = false := by
  have hq : isFinite QNAN = false := by decide
  cases hn : isNaN a with
  | true => rwa [fadd_of_nan (Or.inl hn)]
  | false =>
    rcases fadd_inf_cases (isInf_of_not_finite h hn) b with ⟨hs, -⟩ | ⟨hs, -⟩
    · rwa [hs]
    · rwa [hs]

theorem isFinite_fsub_of_not_finite {b : F32} (h : isFinite b = false) (a : F32) :
    isFinite (fsub a b) = false := by
  rw [fsub, fadd_comm]
  exact isFinite_fadd_of_not_finite (by rwa [isFinite_fneg]) a

/-! ## Zeros -/

/-- A zero times a finite value is a zero. -/
theorem fmul_zero_finite {a b : F32} (ha : isZero a = true) (hb : isFinite b = true) :
    fmul a b = ofParts (signOf a != signOf b) 0 := by
  have hu : unitsOf a = 0 := magUnits_eq_zero.mpr ((isZero_iff a).mp ha)
  rw [fmul_finite (isFinite_of_isZero ha) hb, hu, Nat.zero_mul, roundUnits_zero _ (by decide)]

/-- A zero leaves a value that is neither NaN nor a zero as it is. -/
theorem fadd_zero_right {a z : F32} (hz : isZero z = true) (hn : isNaN a = false)
    (h0 : isZero a = false) : fadd a z = a := by
  have hzf := isFinite_of_isZero hz
  cases hi : isInf a with
  | true => exact fadd_inf_left hi (isNaN_of_isFinite hzf) (Or.inl hzf)
  | false =>
    have hunits : signedUnits z = 0 := (signedUnits_eq_zero z).mpr ((isZero_iff z).mp hz)
    have hmag : magOf a ≠ 0 := fun hm => Bool.eq_false_iff.mp h0 ((isZero_iff a).mpr hm)
    exact fadd_exact (isFinite_of_not hn hi) hzf hn (by omega) hmag

/-- Two zeros sum to a zero, negative only when both are. -/
theorem fadd_zero_zero {a b : F32} (ha : isZero a = true) (hb : isZero b = true) :
    fadd a b = ofParts (signOf a && signOf b) 0 := by
  refine fadd_finite_zero (isFinite_of_isZero ha) (isFinite_of_isZero hb) ?_
  rw [(signedUnits_eq_zero a).mpr ((isZero_iff a).mp ha),
    (signedUnits_eq_zero b).mpr ((isZero_iff b).mp hb)]
  rfl

/-- A zero of either sign leaves every finite value but `-0.0` as it is. -/
theorem fadd_zero_of_ne_neg_zero {a z : F32} (hz : isZero z = true) (ha : isFinite a = true)
    (hne : a ≠ NEG_ZERO) : fadd a z = a := by
  cases h0 : isZero a with
  | false => exact fadd_zero_right hz (isNaN_of_isFinite ha) h0
  | true =>
    have hmag : magOf a = 0 := (isZero_iff a).mp h0
    cases hs : signOf a with
    | true => exact absurd (ext_sign_mag hs hmag) hne
    | false =>
      rw [fadd_zero_zero h0 hz, hs, Bool.false_and]
      exact ext_sign_mag hs.symm hmag.symm

/-! ## Smoother (R162, R163, R164) -/

theorem filterValue_at_one {o : Osc} (h : feq o.scoef ONE = true) (t : F32) :
    filterValue o t = t := by
  simp [filterValue, h]

theorem filterValue_below_one {o : Osc} (h : feq o.scoef ONE = false) (t : F32) :
    filterValue o t = fadd o.smoothed (fmul o.scoef (fsub t o.smoothed)) := by
  simp [filterValue, h]

/-- At coefficient `+0.0` FILTER adds a zero with the sign of the difference. -/
theorem filterValue_zero_finite {o : Osc} {t : F32} (h : o.scoef = ZERO)
    (hd : isFinite (fsub t o.smoothed) = true) :
    filterValue o t = fadd o.smoothed (ofParts (signOf (fsub t o.smoothed)) 0) := by
  rw [filterValue_below_one (by rw [h]; decide), h, fmul_zero_finite (by decide) hd,
    show signOf ZERO = false by decide, Bool.false_bne]

/-- At coefficient `+0.0` a difference that is not finite makes the product invalid. -/
theorem filterValue_zero_nan {o : Osc} {t : F32} (h : o.scoef = ZERO)
    (hd : isFinite (fsub t o.smoothed) = false) : filterValue o t = QNAN := by
  have hproduct : fmul ZERO (fsub t o.smoothed) = QNAN := by
    cases hn : isNaN (fsub t o.smoothed) with
    | true => exact fmul_of_nan (Or.inr hn)
    | false =>
      rw [fmul_comm]
      exact fmul_inf_zero (isInf_of_not_finite hd hn) (by decide)
  rw [filterValue_below_one (by rw [h]; decide), h, hproduct]
  exact fadd_of_nan (Or.inr isNaN_QNAN)

/-- A Running TICK emits and stores what FILTER computes of its target. -/
theorem tickOsc_smoothed {o : Osc} (h : isIdle o = false) :
    (tickOsc o).1.smoothed = filterValue o (tickTarget o) ∧
      (tickOsc o).2.sample = some (filterValue o (tickTarget o)) := by
  rw [tickOsc_running h, runningTick_eq]
  exact ⟨rfl, rfl⟩

end Sys2Proof.Machine
end

section
/-! SUPPORT. The statements about the phase accumulator, the pseudo-random hold, the scaler and the
smoother settled. -/

open Sys2Proof Sys2Proof.Machine

/-- Settles O45: only a TICK writes the generator or the held value, and a TICK changes them by a
draw alone. -/
theorem drawOnlyAtQualifyingWrap : Obligations.DrawOnlyAtQualifyingWrap := by
  unfold Obligations.DrawOnlyAtQualifyingWrap
  intro s t h
  by_cases hi : issued s = some .tick
  · obtain ⟨hosc, hresp⟩ := step_of_issued hi h
    rw [hosc]
    refine (tickOsc_draw s.osc).imp_right fun ⟨hrun, hwave, hwrap, hprbs, hheld⟩ => ?_
    exact ⟨hi, hrun, hwave, ⟨_, hresp, hwrap⟩, hprbs, hheld⟩
  · obtain ⟨-, -, -, -, -, -, -, -, -, -, hheld, -, -, hprbs, -⟩ :=
      registersAreWrittenOnlyByTheirCommands s t h
    exact Or.inl ⟨not_not.mp (mt hprbs hi), not_not.mp (mt hheld hi)⟩

/-- Settles O43: a step leaves the generator or steps it once, and its step never gives zero. -/
theorem generatorIsNeverZero : Obligations.GeneratorIsNeverZero := by
  unfold Obligations.GeneratorIsNeverZero
  refine ⟨fun _ => rfl, fun _ => lfsrStep_ne_zero, fun s t h h0 => ?_, resetPrbs_ne_zero⟩
  rcases drawOnlyAtQualifyingWrap s t h with ⟨hsame, -⟩ | ⟨-, -, -, -, hdraw, -⟩
  · rwa [hsame]
  · rw [hdraw]
    exact lfsrStep_ne_zero h0

/-- Settles O44: the value fits a significand of 24 bits. -/
theorem prbsValueIsExact : Obligations.PrbsValueIsExact := by
  unfold Obligations.PrbsValueIsExact
  intro s
  obtain ⟨hf, hv⟩ := signedUnits_prbsValue s
  exact ⟨hf, hv, (inBipolar_prbsValue s).1, prbsValue_le s⟩

/-- Settles O31, by induction on the number of TICKs. -/
theorem heldIsConstantBetweenWraps : Obligations.HeldIsConstantBetweenWraps := by
  unfold Obligations.HeldIsConstantBetweenWraps
  intro n s hwave h
  obtain ⟨hw, hprbs, hheld⟩ := render_without_wrap n s h
  refine ⟨hheld, hprbs, ?_⟩
  rw [hw, hwave]
  exact hheld

/-- Settles O40: the rounded sum is below two, so one less is below one. -/
theorem advanceKeepsPhaseBelowOne : Obligations.AdvanceKeepsPhaseBelowOne := by
  unfold Obligations.AdvanceKeepsPhaseBelowOne
  intro o hphase h0 h1
  rw [advance_eq]
  exact nextPhase_inHalfOpenUnit hphase h0 h1

/-- Settles O41: between one and two the difference from one fits a significand of 24 bits. -/
theorem wrapSubtractsExactlyOne : Obligations.WrapSubtractsExactlyOne := by
  unfold Obligations.WrapSubtractsExactlyOne
  refine ⟨fun o hinc h1 h2 => ?wrap, fun o hinc hfin => ?hold,
    fun o => phaseSum_lt_two⟩
  case wrap =>
    have hge : fge (phaseSum o) ONE = true := h1
    rw [advance_moves (phaseHolds_of_not_zero hinc), if_pos hge]
    exact ⟨rfl, signedUnits_fsub_one h1 h2⟩
  case hold =>
    rw [advance_holds (phaseHolds_iff.mpr ⟨hinc, hfin⟩)]
    exact ⟨rfl, rfl⟩

/-- Settles O42: infinity absorbs the sum and the one taken from it; a legal increment has the sign
of its frequency, which is no NaN and not below zero. -/
theorem incrementRangeAndInfinitePhase : Obligations.IncrementRangeAndInfinitePhase := by
  unfold Obligations.IncrementRangeAndInfinitePhase
  refine ⟨fun o hs hn hinc => ?infiniteIncrement, fun o hphase hinc => ?infinitePhase,
    fun o hfin hinc => ?zeroIncrement, fun o hlegal => ?legal⟩
  case infiniteIncrement => exact Prod.ext_iff.mp (advance_pinc_inf hs hn hinc)
  case infinitePhase => exact Prod.ext_iff.mp (advance_phase_inf hphase hinc)
  case zeroIncrement =>
    exact Prod.ext_iff.mp (advance_holds (phaseHolds_iff.mpr ⟨by rw [hinc]; decide, hfin⟩))
  case legal =>
    obtain ⟨hn, hrange⟩ := hlegal.pinc_range
    exact ⟨hn, hrange, hlegal.isIdle_iff⟩

/-- Settles O46: the corner cases of the product, then those of the sum. -/
theorem scalerCorners : Obligations.ScalerCorners := by
  unfold Obligations.ScalerCorners
  intro o raw
  refine ⟨rfl, fun hdepth hraw hn h0 => ?zeroDepth, fun hdepth hraw => ?infiniteDepth,
    fadd_inf_opposite, fun hraw => ?nanValue⟩
  case zeroDepth =>
    rw [scale, fmul_comm, fmul_zero_finite hdepth hraw, fadd_comm]
    exact fadd_zero_right (isZero_ofParts_zero _) hn h0
  case infiniteDepth =>
    rw [scale, fmul_comm, fmul_inf_zero hdepth hraw]
    exact fadd_of_nan (Or.inl isNaN_QNAN)
  case nanValue =>
    rw [scale, fmul_of_nan (Or.inl hraw)]
    exact fadd_of_nan (Or.inl isNaN_QNAN)

/-- Settles O48: the product of `+0.0` and the difference is a zero of the difference's sign, or
NaN. -/
theorem smootherFreezesAtZero : Obligations.SmootherFreezesAtZero := by
  unfold Obligations.SmootherFreezesAtZero
  intro o t hcoef
  refine ⟨fun hm hd hne => ?keeps, fun hd hm => ?negZero, filterValue_zero_nan hcoef,
    fun hm => filterValue_zero_nan hcoef (isFinite_fsub_of_not_finite hm t)⟩
  case keeps =>
    rw [filterValue_zero_finite hcoef hd]
    exact fadd_zero_of_ne_neg_zero (isZero_ofParts_zero _) hm hne
  case negZero =>
    have hzero : isZero o.smoothed = true := by rw [hm]; decide
    have hneg : signOf o.smoothed = true := by rw [hm]; decide
    rw [filterValue_zero_finite hcoef hd, fadd_zero_zero hzero (isZero_ofParts_zero _), hneg,
      Bool.true_and, signOf_ofParts _ _ (by decide), ofParts_zero]

/-- Settles O49: FILTER adds to its memory, and a sum with a value that is not finite is not
finite. -/
theorem nonFiniteMemoryStays : Obligations.NonFiniteMemoryStays := by
  unfold Obligations.NonFiniteMemoryStays
  intro o t _ hcoef hm _
  rw [filterValue_below_one hcoef]
  exact isFinite_fadd_of_not_finite hm _

/-- Settles O47: at coefficient one FILTER answers its target; the plain formula loses 3e-9 beside
0.1. -/
theorem smootherIsTransparentAtOne : Obligations.SmootherIsTransparentAtOne := by
  unfold Obligations.SmootherIsTransparentAtOne
  refine ⟨fun s hrun hcoef => ?_, by decide +kernel⟩
  obtain ⟨hsmoothed, hsample⟩ := tickOsc_smoothed (o := s.osc) hrun
  rw [filterValue_at_one (by rw [hcoef]; decide)] at hsmoothed hsample
  exact ⟨_, _, exec_eq_finish .tick s, rfl, hsample, hsmoothed⟩

end

section
/-! SUPPORT. Blocks of TICKs (R186, R187), and what moves the Idle test (R181, R185). -/

namespace Sys2Proof.Machine

/-! ## Runs of two lists (R19) -/

/-- A run of one list after another goes on from the state the first one leaves. -/
theorem observe_append (vs ws : List Word) (s : State) :
    observe (vs ++ ws) s =
      ((observe vs s).1 ++ (observe ws (observe vs s).2).1, (observe ws (observe vs s).2).2) := by
  induction vs generalizing s with
  | nil => rfl
  | cons v vs ih => simp only [List.cons_append, observe_cons, ih]

theorem renderWords_add (a b : Nat) : renderWords (a + b) = renderWords a ++ renderWords b :=
  (List.replicate_append_replicate ..).symm

/-! ## Idle blocks (R182, R186) -/

/-- A TICK found Idle leaves the block Idle, so the whole block of TICKs is Idle. -/
theorem observe_renderWords_idle (n : Nat) {s : State} (h : isIdle s.osc = true) :
    (observe (renderWords n) s).1 = List.replicate n (Resp.ofTick s.osc.idle false) ∧
      (observe (renderWords n) s).2.osc = if n = 0 then s.osc else s.osc.writePhase ZERO := by
  induction n generalizing s with
  | zero => exact ⟨rfl, rfl⟩
  | succ n ih =>
    have hidle : isIdle (s.osc.writePhase ZERO) = true := h
    rw [renderWords_succ, observe_cons, wordEffect_tickWord, tickOsc_idle h]
    obtain ⟨hresps, hosc⟩ :=
      ih (s := s.finish (s.osc.writePhase ZERO) (Resp.ofTick s.osc.idle false)) hidle
    refine ⟨congrArg (Resp.ofTick s.osc.idle false :: ·) hresps, hosc.trans ?_⟩
    rw [if_neg n.succ_ne_zero]
    exact ite_self _

/-! ## The Idle test (R181) -/

theorem isIdle_of_zero {o : Osc} (h : o.freq = ZERO ∨ o.freq = NEG_ZERO) : isIdle o = true := by
  rcases h with h | h <;> rw [isIdle, h] <;> decide

theorem isIdle_of_positive {o : Osc} (h : fgt o.freq ZERO = true) : isIdle o = false :=
  not_fle_of_fgt h

/-- SET_FREQ ignores a NaN operand (R201). -/
theorem commandEffect_setFreq_nan {d : F32} (h : isNaN d = true) (o : Osc) :
    commandEffect (.setFreq d) o = (o, Resp.empty) := by
  simp [commandEffect, f32Operand_nan h]

end Sys2Proof.Machine
end

section
/-! SUPPORT. The synthesis loop's statements settled. -/

open Sys2Proof Sys2Proof.Machine

/-- Settles O29, by induction on the number of TICKs. -/
theorem idleLaw : Obligations.IdleLaw := by
  unfold Obligations.IdleLaw
  exact fun n s h => observe_renderWords_idle n h

/-- Settles O30: a block's words are one list after the other. -/
theorem blocksSplit : Obligations.BlocksSplit := by
  unfold Obligations.BlocksSplit
  refine ⟨fun _ => rfl, observe_nil, fun a b s => ?_⟩
  rw [renderWords_add]
  exact observe_append (renderWords a) (renderWords b) s

/-- Settles O10: a command answers its effect, and a step without a word answers its own state. -/
theorem everyCommandCompletes : Obligations.EveryCommandCompletes := by
  unfold Obligations.EveryCommandCompletes
  refine ⟨fun i s => ⟨_, exec_eq_finish i s, rfl⟩, fun s => ?_⟩
  cases hp : s.pending with
  | nil => exact ⟨s, step_nil hp⟩
  | cons w rest => exact ⟨_, step_eq_wordEffect hp⟩

/-- Settles O27: the Idle test reads the frequency alone, which only SET_FREQ writes, and not with a
NaN. -/
theorem onlySetFreqMovesTheControlState : Obligations.OnlySetFreqMovesTheControlState := by
  unfold Obligations.OnlySetFreqMovesTheControlState
  refine ⟨fun s t h hmoves => ?_, fun o => status_getLsbD o 0, fun _ => rfl,
    fun _ => isIdle_of_zero, fun _ => isIdle_of_positive⟩
  have hfreq : t.osc.freq ≠ s.osc.freq := fun he => hmoves (by rw [isIdle, isIdle, he])
  obtain ⟨hwriter, -⟩ := registersAreWrittenOnlyByTheirCommands s t h
  obtain ⟨d, hd⟩ := hwriter hfreq
  refine ⟨d, hd, Bool.eq_false_iff.mpr fun hnan => hfreq ?_⟩
  rw [(step_of_issued hd h).1, commandEffect_setFreq_nan hnan]

/-- Settles O28: TICK's effect is that of the branch its Idle test selects. -/
theorem tickRunsStepsInOrder : Obligations.TickRunsStepsInOrder := by
  unfold Obligations.TickRunsStepsInOrder
  refine ⟨by decide, fun s hidle => ?idle, fun s hrun => ?running⟩
  case idle =>
    rw [exec_eq_finish, commandEffect, tickOsc_idle hidle]
    rfl
  case running =>
    rw [exec_eq_finish, commandEffect, tickOsc_running hrun, runningTick_eq]
    rfl

end

section
/-! SUPPORT. The host commands (R200-R211): what a setter makes of an ignored and of an accepted
operand, the values stored at the bounds, and the registers READ answers. -/

namespace Sys2Proof

/-- READ's word with its register number written out (R91, R92). -/
theorem encode_read (r : RegNum) :
    encode (.read r) = 0x0B#8 ++ 0x000000#24 ++ 0x0000000#28 ++ r := by
  revert r
  decide

/-- NOP's opcode with `DATA` not zero is illegal (R92, R95). -/
theorem decode_nop_operand {d : BitVec 32} (h : d ≠ 0#32) :
    decode (encodeFields 0x00#8 d) = .error .operandNotZero := by
  simp [decode, decodeNoOperand, h]

namespace Machine

/-! ## Comparisons with a bound (R13) -/

theorem isNaN_of_flt {a b : F32} (h : flt a b = true) : isNaN a = false := (flt_iff.mp h).1

theorem isNaN_of_fle {a b : F32} (h : fle a b = true) : isNaN a = false := (fle_iff.mp h).1

theorem isNaN_of_fge {a b : F32} (h : fge a b = true) : isNaN a = false := (fge_iff.mp h).2.1

theorem isZero_of_fgt_zero {x : F32} (h : fgt x ZERO = true) : isZero x = false := by
  obtain ⟨-, -, hkey⟩ := fgt_iff.mp h
  rw [orderKey_ZERO, orderKey_nonneg (signOf_of_fgt_zero h).1] at hkey
  refine Bool.eq_false_iff.mpr fun hz => ?_
  rw [(isZero_iff x).mp hz] at hkey
  exact absurd hkey (by decide)

/-- A value of zero or less that is not below zero is one of the two zeros. -/
theorem isZero_of_fle_zero {x : F32} (hle : fle x ZERO = true) (hlt : flt x ZERO = false) :
    isZero x = true := by
  have hge : fle ZERO x = true := (not_flt_iff (isNaN_of_fle hle) (by decide)).mp hlt
  have hunits : signedUnits x = signedUnits ZERO :=
    ((orderKey_eq_iff x ZERO).mp (le_antisymm (fle_iff.mp hle).2.2 (fle_iff.mp hge).2.2))
  exact (isZero_iff x).mpr ((signedUnits_eq_zero x).mp hunits)

/-! ## Quotients by a sample rate (R39) -/

section
variable {r : F32} (hf : isFinite r = true) (hpos : fgt r ZERO = true)
include hf hpos

theorem fdiv_zero_by_positive {z : F32} (hz : isZero z = true) : fdiv z r = z := by
  have hr : isZero r = false := isZero_of_fgt_zero hpos
  have hmag : magOf z = 0 := (isZero_iff z).mp hz
  have hunits : unitsOf z = 0 := magUnits_eq_zero.mpr hmag
  rw [fdiv_finite (isFinite_of_isZero hz) hf hr, hunits, Nat.zero_mul,
    roundUnits_zero _ (unitsOf_pos hr), (signOf_of_fgt_zero hpos).1, Bool.bne_false, ← hmag,
    ofParts_sign_mag]

theorem fdiv_inf_by_positive : fdiv INF r = INF := by
  rw [fdiv_inf_finite (by decide) hf, (signOf_of_fgt_zero hpos).1]
  rfl

end

/-! ## The values the setters store (R201, R207) -/

theorem freqValue_of_neg {d : F32} (h : flt d ZERO = true) : freqValue d = ZERO := if_pos h

theorem freqValue_of_not_neg {d : F32} (h : flt d ZERO = false) : freqValue d = d :=
  if_neg (Bool.eq_false_iff.mp h)

/-- Below zero the clamp gives `+0.0`; a zero of either sign is kept, and one minus it is one. -/
theorem scoefValue_of_fle_zero {d : F32} (h : fle d ZERO = true) : scoefValue d = ONE := by
  cases hlt : flt d ZERO with
  | true => rw [scoefValue, clampf_below hlt, fsub_ONE_ZERO]
  | false =>
    have hge : fle ZERO d = true := (not_flt_iff (isNaN_of_fle h) (by decide)).mp hlt
    have hz : isZero (fneg d) = true := by
      rw [isZero_iff, magOf_fneg]
      exact (isZero_iff d).mp (isZero_of_fle_zero h hlt)
    rw [scoefValue, clampf_inside hge (fle_trans h (by decide))]
    exact fadd_zero_right hz (by decide) (by decide)

theorem scoefValue_of_fge_one {d : F32} (h : fge d ONE = true) : scoefValue d = ZERO :=
  (congrArg (fsub ONE) (clamp01_of_fge_one h)).trans fsub_ONE_ONE

theorem scoefValue_between {d : F32} (h0 : fgt d ZERO = true) (h1 : flt d ONE = true) :
    scoefValue d = fsub ONE d := by
  rw [scoefValue, clampf_inside (fle_of_flt h0) (fle_of_flt h1)]

/-! ## Operands that are ignored (R202, R208) -/

theorem waveOfIndex_above {d : U32} (h : 5 < d.toNat) : waveOfIndex d = none := by
  refine Option.eq_none_iff_forall_ne_some.mpr fun w hw => ?_
  have hle := waveIndex_toNat_le w
  rw [waveOfIndex_eq_some.mp hw] at hle
  omega

theorem sampleRateOperand_none {d : F32}
    (h : isNaN d = true ∨ isInf d = true ∨ fgt d ZERO = false) : sampleRateOperand d = none := by
  rcases h with h | h | h <;> simp [sampleRateOperand, h]

theorem sampleRateOperand_finite {d : F32} (hf : isFinite d = true) (hpos : fgt d ZERO = true) :
    sampleRateOperand d = some d := by
  simp [sampleRateOperand, isNaN_of_isFinite hf, isInf_of_isFinite hf, hpos]

/-! ## Setters by their operand (R200) -/

theorem finishSetter_ignored {α : Type} {operand : Option α} (h : operand = none) (s : State)
    (write : Osc → α → Osc) :
    finishSetter s operand write = { s with resp := some Resp.empty } := by
  subst h
  rfl

theorem finishSetter_accepted {α : Type} {operand : Option α} {v : α} (h : operand = some v)
    (s : State) (write : Osc → α → Osc) :
    finishSetter s operand write = { s with osc := write s.osc v, resp := some Resp.empty } := by
  subst h
  rfl

section
variable {d v : F32} (hn : isNaN d = false)
include hn

theorem exec_setFreq (hv : freqValue d = v) (s : State) :
    exec (.setFreq d) s =
      .next { s with osc := s.osc.setFreq v, resp := some Resp.empty } := by
  subst hv
  exact congrArg _ (finishSetter_accepted (f32Operand_some hn) s _)

theorem exec_setPw (hv : pwValue d = v) (s : State) :
    exec (.setPw d) s = .next { s with osc := s.osc.writePw v, resp := some Resp.empty } := by
  subst hv
  exact congrArg _ (finishSetter_accepted (f32Operand_some hn) s _)

theorem exec_setSmooth (hv : scoefValue d = v) (s : State) :
    exec (.setSmooth d) s =
      .next { s with osc := s.osc.writeScoef v, resp := some Resp.empty } := by
  subst hv
  exact congrArg _ (finishSetter_accepted (f32Operand_some hn) s _)

end

/-! ## READ (R210) -/

theorem exec_read {r : RegNum} {v : U32} {s : State} (h : readReg s.osc r = some v) :
    exec (.read r) s = .next { s with resp := some (Resp.ofRead v) } := by
  simp only [exec, execRead, h]
  rfl

end Machine

end Sys2Proof
end

section
/-! SUPPORT. The host commands' statements settled. -/

open Sys2Proof Sys2Proof.Machine

/-- Settles O15: what SET_FREQ stores is `freqValue` of its operand. -/
theorem setFreqWritesFrequencyAndIncrement : Obligations.SetFreqWritesFrequencyAndIncrement := by
  unfold Obligations.SetFreqWritesFrequencyAndIncrement
  exact fun d s => ⟨decode_encode (i := .setFreq d) rfl,
    fun hn => congrArg _ (finishSetter_ignored (f32Operand_nan hn) s _),
    fun hneg => exec_setFreq (isNaN_of_flt hneg) (freqValue_of_neg hneg) s,
    fun hn hpos => exec_setFreq hn (freqValue_of_not_neg hpos) s⟩

/-- Settles O21: a positive rate leaves both zeros and `+inf` as they are, so the increment is the
frequency stored. -/
theorem setFreqCornerIncrements : Obligations.SetFreqCornerIncrements := by
  unfold Obligations.SetFreqCornerIncrements
  refine fun s hf hpos => ⟨fun d hneg => ?negative, ?negZero, ?inf⟩
  case negative =>
    exact ⟨_, exec_setFreq (isNaN_of_flt hneg) (freqValue_of_neg hneg) s, rfl,
      fdiv_zero_by_positive hf hpos (by decide), isIdle_of_zero (Or.inl rfl)⟩
  case negZero =>
    exact ⟨_, exec_setFreq (by decide) (freqValue_of_not_neg (by decide)) s, rfl,
      fdiv_zero_by_positive hf hpos (by decide), isIdle_of_zero (Or.inr rfl)⟩
  case inf =>
    exact ⟨_, exec_setFreq (by decide) (freqValue_of_not_neg (by decide)) s, rfl,
      fdiv_inf_by_positive hf hpos, isIdle_of_positive (by decide : fgt INF ZERO = true)⟩

/-- Settles O16: an index selects the waveform whose index it is, and no waveform's is above 5. -/
theorem setWaveSelectsByIndex : Obligations.SetWaveSelectsByIndex := by
  unfold Obligations.SetWaveSelectsByIndex
  exact fun d s => ⟨decode_encode (i := .setWave d) rfl,
    fun w hw => congrArg _ (finishSetter_accepted (waveOfIndex_eq_some.mpr hw.symm) s _),
    fun h => congrArg _ (finishSetter_ignored (waveOfIndex_above h) s _)⟩

/-- Settles O17: the three setters differ in their write alone. -/
theorem setOffsetDepthShapeStoreTheOperand : Obligations.SetOffsetDepthShapeStoreTheOperand := by
  unfold Obligations.SetOffsetDepthShapeStoreTheOperand
  refine fun d s => ⟨decode_encode (i := .setOffset d) rfl, decode_encode (i := .setDepth d) rfl,
    decode_encode (i := .setShape d) rfl, fun hn => ?nan, fun hn => ?accepted⟩
  case nan =>
    have hignored := finishSetter_ignored (f32Operand_nan hn) s
    exact ⟨congrArg _ (hignored Osc.writeOffset), congrArg _ (hignored Osc.writeDepth),
      congrArg _ (hignored Osc.writeShape)⟩
  case accepted =>
    have haccepted := finishSetter_accepted (f32Operand_some hn) s
    exact ⟨congrArg _ (haccepted Osc.writeOffset), congrArg _ (haccepted Osc.writeDepth),
      congrArg _ (haccepted Osc.writeShape)⟩

/-- Settles O18: the value stored is the clamped operand, below, above and between the bounds. -/
theorem setPwClamps : Obligations.SetPwClamps := by
  unfold Obligations.SetPwClamps
  exact fun d s => ⟨decode_encode (i := .setPw d) rfl,
    fun hn => congrArg _ (finishSetter_ignored (f32Operand_nan hn) s _),
    fun hlo => exec_setPw (isNaN_of_flt hlo) (clampf_below hlo) s,
    fun hhi => exec_setPw (isNaN_of_fgt hhi) (clampf_above (by decide) hhi) s,
    fun hlo hhi => exec_setPw (isNaN_of_fle hhi) (clampf_inside hlo hhi) s⟩

/-- Settles O19: one minus the clamped operand is exact at both bounds and past them. -/
theorem setSmoothStoresOneMinusOperand : Obligations.SetSmoothStoresOneMinusOperand := by
  unfold Obligations.SetSmoothStoresOneMinusOperand
  exact fun d s => ⟨decode_encode (i := .setSmooth d) rfl,
    fun hn => congrArg _ (finishSetter_ignored (f32Operand_nan hn) s _),
    fun h => exec_setSmooth (isNaN_of_fle h) (scoefValue_of_fle_zero h) s,
    fun h => exec_setSmooth (isNaN_of_fge h) (scoefValue_of_fge_one h) s,
    fun h0 h1 => exec_setSmooth (isNaN_of_flt h1) (scoefValue_between h0 h1) s⟩

/-- Settles O20: the operand form of SET_SR ignores all but a finite positive rate. -/
theorem setSrAcceptsFinitePositive : Obligations.SetSrAcceptsFinitePositive := by
  unfold Obligations.SetSrAcceptsFinitePositive
  exact fun d s => ⟨decode_encode (i := .setSr d) rfl,
    fun h => congrArg _ (finishSetter_ignored (sampleRateOperand_none h) s _),
    fun hf hpos => congrArg _ (finishSetter_accepted (sampleRateOperand_finite hf hpos) s _)⟩

/-- Settles O23: the command's effect reads neither the control state nor the phase. -/
theorem resetPhaseZeroesPhaseAndNotifies : Obligations.ResetPhaseZeroesPhaseAndNotifies := by
  unfold Obligations.ResetPhaseZeroesPhaseAndNotifies
  exact ⟨decode_encode (i := .resetPhase) rfl, exec_eq_finish .resetPhase⟩

/-- Settles O24: a non-zero operand is the one way a NOP word with `RES` zero is illegal. -/
theorem nopDoesNothing : Obligations.NopDoesNothing := by
  unfold Obligations.NopDoesNothing
  exact ⟨decode_encode (i := .nop) rfl, fun _ hd => decode_nop_operand hd, exec_eq_finish .nop⟩

/-- Settles O25: one case for each register's row of the read port. -/
theorem readReturnsTheRegister : Obligations.ReadReturnsTheRegister := by
  unfold Obligations.ReadReturnsTheRegister
  refine ⟨fun r hr => ?word, fun s => ⟨fun r v hrow => exec_read ?register, rfl⟩⟩
  case word =>
    rw [← encode_read]
    exact decode_encode (bne_iff_ne.mpr hr)
  case register =>
    rcases hrow with ⟨rfl, rfl⟩ | ⟨rfl, rfl⟩ | ⟨rfl, rfl⟩ | ⟨rfl, rfl⟩ | ⟨rfl, rfl⟩ | ⟨rfl, rfl⟩ |
      ⟨rfl, rfl⟩ | ⟨rfl, rfl⟩ | ⟨rfl, rfl⟩ | ⟨rfl, rfl⟩ | ⟨rfl, rfl⟩ | ⟨rfl, rfl⟩ | ⟨rfl, rfl⟩ |
      ⟨rfl, rfl⟩ | ⟨rfl, rfl⟩ <;> rfl

end

section
/-! SUPPORT. Which commands raise the cycle-wrap event (R303). -/

namespace Sys2Proof.Machine

theorem wraps_iff {o : Osc} :
    wraps o = true ↔
      ¬(feq o.pinc ZERO = true ∧ isFinite o.phase = true) ∧ fge (phaseSum o) ONE = true := by
  rw [wraps, Bool.and_eq_true, Bool.not_eq_true', ← phaseHolds_iff, Bool.not_eq_true]

/-- An Idle TICK never raises the event (R182); a Running one does when ADVANCE wraps (R184). -/
theorem tickOsc_wrap_iff (o : Osc) :
    (tickOsc o).2.wrap = true ↔ isIdle o = false ∧ wraps o = true := by
  cases hi : isIdle o with
  | true => simp [tickOsc_idle hi, idleTick, Resp.ofTick]
  | false => simp [tickOsc_running hi, runningTick_eq]

theorem commandEffect_wrap_iff (i : Instr) (o : Osc) :
    (commandEffect i o).2.wrap = true ↔
      i = .resetPhase ∨ i = .tick ∧ isIdle o = false ∧ wraps o = true := by
  cases i with
  | resetPhase => simp [commandEffect, Resp.ofWrap]
  | tick => simp [commandEffect, tickOsc_wrap_iff]
  | read r =>
    simp only [commandEffect]
    cases readReg o r <;> simp [Resp.empty, Resp.ofRead]
  | _ => simp [commandEffect, Resp.empty]

end Sys2Proof.Machine
end

section
/-! SUPPORT. The statements about the exception and the event settled. -/

open Sys2Proof Sys2Proof.Machine

/-- Settles O9. The bit is sticky because only an illegal word writes `S.err`, and it writes true. -/
theorem illegalCommandSetsStickyErr : Obligations.IllegalCommandSetsStickyErr := by
  unfold Obligations.IllegalCommandSetsStickyErr
  refine ⟨fun s w rest e hp hd => step_of_decode_error hd hp, fun s t h hset => ?sticky,
    fun o => status_getLsbD o 1⟩
  case sticky =>
    obtain ⟨-, -, -, -, -, -, -, -, -, -, -, -, -, -, herr⟩ :=
      registersAreWrittenOnlyByTheirCommands s t h
    by_cases hsame : t.osc.err = s.osc.err
    · exact hsame.trans hset
    · obtain ⟨w, rest, e, hp, hd⟩ := herr hsame
      rw [step_of_decode_error hd hp] at h
      cases h
      rfl

/-- Settles O12: an illegal word's response is empty, and of the commands only RESET_PHASE and a
Running TICK that wraps raise the event. -/
theorem wrapEventHasTwoSources : Obligations.WrapEventHasTwoSources := by
  unfold Obligations.WrapEventHasTwoSources
  intro s t w rest r hp hs hr
  rw [step_eq_wordEffect hp] at hs
  cases hs
  cases hr
  cases hd : decode w with
  | ok i =>
    rw [wordEffect_ok hd, issued_of_ok hp hd, commandEffect_wrap_iff, wraps_iff, Option.some.injEq,
      Option.some.injEq]
    rfl
  | error e => simp [wordEffect_error hd, issued_of_error hp hd, Resp.empty]

end
